-- ==== Sys2Proof/Word.lean ====
section
/-! DEFINITION. The word types of the core: a word is 32 bits, a byte 8 bits (00_scope.md rules R4 and R6). -/

namespace Sys2Proof

/-- A 32-bit word: a register, an address, an instruction (00_scope.md rule R6, `u32`). -/
abbrev Word := BitVec 32

/-- A byte of memory (00_scope.md rule R6). -/
abbrev Byte := BitVec 8

end Sys2Proof
end

