-- ==== Sys2Proof/Config.lean ====
section
/-! DEFINITION. The parameters of the machine (00_scope.md rule R4): what an instance fixes for the life of the core.
Of the parameter `Env` only the values no one knows are here, `Config.env`; which environment a machine has stands in its
state (Machine/State.lean, `env` and `envAnswers`; log 5, log 43). -/

namespace Sys2Proof

/-- The bounds of a memory region, both inclusive (20_memory.md rule R30; decision D6, log 10). -/
structure Region where
  base  : Word
  limit : Word
deriving DecidableEq, Repr

/-- The parameters of 00_scope.md rule R4. DESIGN CHOICE (log 1, safe): the machine's state carries them, so that a
statement about every state is a statement about every value of the parameters, as R4 asks. -/
structure Config where
  /-- region TEXT: `TEXT_BASE`, `TEXT_END` -/
  text : Region
  /-- region DATA, which also holds the stack -/
  data : Region
  /-- region KDATA -/
  kdata : Region
  /-- region KTEXT -/
  ktext : Region
  /-- `HALT_SELECTOR` -/
  haltSelector : Word
  /-- `HAS_UNSIGNED_LOADS` -/
  hasUnsignedLoads : Bool
deriving DecidableEq, Repr

/-- The spec's own defaults (00_scope.md rule R4; decisions D3, D5, D15). PRESUMED (unsafe for a statement that rests on
them; log 2, log 3, log 4): the source gives no number. -/
def Config.default : Config where
  text := ⟨0x00400000, 0x004FFFFF⟩
  data := ⟨0x10000000, 0x7FFFFFFF⟩
  kdata := ⟨0x90000000, 0x900FFFFF⟩
  ktext := ⟨0x80000000, 0x800FFFFF⟩
  haltSelector := 10
  hasUnsignedLoads := false

/-- FREE VALUE (log 43; safe): the environments, numbered. `Config.env n` is a total function from the selector and the
snapshot of the registers to the answer, if any (00_scope.md rule R4; 45_system.md rule R172). It has no body: nothing is
known of it, so a claim about it is a claim about every environment. -/
opaque Config.env (n : Nat) (selector : Word) (gpr : Vector Word 32) : Option Word

end Sys2Proof
end

