-- ==== Sys2Proof/Syntax.lean ====
section
/-! DEFINITION. The instructions: one constructor per row of spec/opcode_table.json, in the table's order, and the
structural decoding of a word (30_encoding.md rules R52 to R55).

A constructor carries EVERY field of its format, those its operation ignores too (30_encoding.md rule R56), because the
diagnostic record of a fault holds the raw word (60_exceptions.md rule R187): `encode` gives that word back. -/

namespace Sys2Proof

/-- A general register's number, a 5-bit field (10_state.md rule R11). -/
abbrev Reg := BitVec 5

/-- The 5-bit shift amount of the R format (30_encoding.md rule R52). -/
abbrev Shamt := BitVec 5

/-- The raw 16-bit immediate of the I format (30_encoding.md rule R53). -/
abbrev Imm16 := BitVec 16

/-- The 26-bit target of the J format (30_encoding.md rule R54). -/
abbrev Target26 := BitVec 26

/-- A word taken apart by position, before anything judges it (30_encoding.md rules R52 to R55; 10_state.md rule R27). -/
inductive Decoded where
  | rType (rs rt rd : Reg) (shamt : Shamt) (funct : BitVec 6)
  | iType (opcode : BitVec 6) (rs rt : Reg) (imm : Imm16)
  | jType (opcode : BitVec 6) (target : Target26)
deriving DecidableEq, Repr

/-- The 44 instructions of the opcode table (30_encoding.md rules R57 and R58). -/
inductive Instr where
  | sll     (rs rt rd : Reg) (shamt : Shamt)
  | srl     (rs rt rd : Reg) (shamt : Shamt)
  | sra     (rs rt rd : Reg) (shamt : Shamt)
  | jr      (rs rt rd : Reg) (shamt : Shamt)
  | jalr    (rs rt rd : Reg) (shamt : Shamt)
  | syscall (rs rt rd : Reg) (shamt : Shamt)
  | mfhi    (rs rt rd : Reg) (shamt : Shamt)
  | mthi    (rs rt rd : Reg) (shamt : Shamt)
  | mflo    (rs rt rd : Reg) (shamt : Shamt)
  | mtlo    (rs rt rd : Reg) (shamt : Shamt)
  | mult    (rs rt rd : Reg) (shamt : Shamt)
  | multu   (rs rt rd : Reg) (shamt : Shamt)
  | div     (rs rt rd : Reg) (shamt : Shamt)
  | divu    (rs rt rd : Reg) (shamt : Shamt)
  | add     (rs rt rd : Reg) (shamt : Shamt)
  | addu    (rs rt rd : Reg) (shamt : Shamt)
  | sub     (rs rt rd : Reg) (shamt : Shamt)
  | subu    (rs rt rd : Reg) (shamt : Shamt)
  | and     (rs rt rd : Reg) (shamt : Shamt)
  | or      (rs rt rd : Reg) (shamt : Shamt)
  | xor     (rs rt rd : Reg) (shamt : Shamt)
  | nor     (rs rt rd : Reg) (shamt : Shamt)
  | slt     (rs rt rd : Reg) (shamt : Shamt)
  | j       (target : Target26)
  | jal     (target : Target26)
  | beq     (rs rt : Reg) (imm : Imm16)
  | bne     (rs rt : Reg) (imm : Imm16)
  | blez    (rs rt : Reg) (imm : Imm16)
  | bgtz    (rs rt : Reg) (imm : Imm16)
  | addi    (rs rt : Reg) (imm : Imm16)
  | addiu   (rs rt : Reg) (imm : Imm16)
  | slti    (rs rt : Reg) (imm : Imm16)
  | andi    (rs rt : Reg) (imm : Imm16)
  | ori     (rs rt : Reg) (imm : Imm16)
  | xori    (rs rt : Reg) (imm : Imm16)
  | lui     (rs rt : Reg) (imm : Imm16)
  | lb      (rs rt : Reg) (imm : Imm16)
  | lh      (rs rt : Reg) (imm : Imm16)
  | lw      (rs rt : Reg) (imm : Imm16)
  | lbu     (rs rt : Reg) (imm : Imm16)
  | lhu     (rs rt : Reg) (imm : Imm16)
  | sb      (rs rt : Reg) (imm : Imm16)
  | sh      (rs rt : Reg) (imm : Imm16)
  | sw      (rs rt : Reg) (imm : Imm16)
deriving DecidableEq, Repr

end Sys2Proof
end

