-- ==== Sys2Proof/WellFormed.lean ====
section
/-! DEFINITION. What is checked once: that a configuration meets the constraints of 00_scope.md rules R4 and R5, and that
an instruction is one the configuration implements (30_encoding.md rules R57, R58). The widths of an instruction's fields
need no check: their types are exact. -/

namespace Sys2Proof

/-- A region is not empty: its base does not exceed its limit (00_scope.md rule R4). -/
def Region.nonempty (r : Region) : Bool := r.base.toNat ≤ r.limit.toNat

/-- No address lies in both regions (00_scope.md rule R5). -/
def Region.disjoint (a b : Region) : Bool := a.limit.toNat < b.base.toNat || b.limit.toNat < a.base.toNat

/-- `TEXT_BASE` is a multiple of 4 (00_scope.md rules R4 and R5). -/
def Config.textBaseAligned (c : Config) : Bool := c.text.base.toNat % 4 == 0

/-- `TEXT_END mod 4 = 3` (00_scope.md rules R4 and R5). -/
def Config.textEndAligned (c : Config) : Bool := c.text.limit.toNat % 4 == 3

/-- `TEXT_END >= TEXT_BASE + 3` (00_scope.md rule R4). -/
def Config.textHoldsAWord (c : Config) : Bool := c.text.base.toNat + 3 ≤ c.text.limit.toNat

/-- The four regions are pairwise disjoint (00_scope.md rule R5; 20_memory.md rule R31). -/
def Config.regionsDisjoint (c : Config) : Bool :=
  c.text.disjoint c.data && c.text.disjoint c.kdata && c.text.disjoint c.ktext
    && c.data.disjoint c.kdata && c.data.disjoint c.ktext && c.kdata.disjoint c.ktext

/-- All the constraints on the parameters (00_scope.md rules R4 and R5). -/
def Config.wf (c : Config) : Bool :=
  c.textBaseAligned && c.textEndAligned && c.textHoldsAWord
    && c.data.nonempty && c.kdata.nonempty && c.ktext.nonempty && c.regionsDisjoint

/-- The instruction is one the configuration implements: all are, except that LBU and LHU need the parameter
`HAS_UNSIGNED_LOADS` (30_encoding.md rules R57 and R58; decision D3, log 4). -/
def Instr.wf (c : Config) : Instr → Bool
  | .sll .. | .srl .. | .sra .. | .jr .. | .jalr .. | .syscall .. | .mfhi .. | .mthi .. | .mflo .. | .mtlo .. => true
  | .mult .. | .multu .. | .div .. | .divu .. => true
  | .add .. | .addu .. | .sub .. | .subu .. | .and .. | .or .. | .xor .. | .nor .. | .slt .. => true
  | .j .. | .jal .. | .beq .. | .bne .. | .blez .. | .bgtz .. => true
  | .addi .. | .addiu .. | .slti .. | .andi .. | .ori .. | .xori .. | .lui .. => true
  | .lb .. | .lh .. | .lw .. | .sb .. | .sh .. | .sw .. => true
  | .lbu .. | .lhu .. => c.hasUnsignedLoads

end Sys2Proof
end

