-- ==== Sys2Proof/Decode.lean ====
section
/-! DEFINITION. Decoding, in the spec's two steps: `decodeFields` (total, by position only, 30_encoding.md rules R51 to
R55) and `dispatch` (the only place an encoding is judged, rules R56 to R60); then the encoder, written from the same
maps. PRESUMED (unsafe, log 7): the numbers of rules R57 and R58 are the standard MIPS32 ones (decision D1). -/

namespace Sys2Proof

/-- Why a word is no instruction (30_encoding.md rule R60). -/
inductive DecodeError where
  /-- opcode 0 with a function code the map of rule R58 does not hold -/
  | noFunct (funct : BitVec 6)
  /-- an opcode the map of rule R57 does not hold -/
  | noOpcode (opcode : BitVec 6)
  /-- fewer than four bytes were given (rule R50: every instruction is one word) -/
  | truncated (bytes : Nat)
deriving DecidableEq, Repr

/-! ## Fields by position -/

/-- `word[31:26]` (30_encoding.md rule R51). -/
def fieldOpcode (w : Word) : BitVec 6 := w.extractLsb' 26 6
/-- `word[25:21]` (30_encoding.md rules R52 and R53). -/
def fieldRs (w : Word) : Reg := w.extractLsb' 21 5
/-- `word[20:16]` (30_encoding.md rules R52 and R53). -/
def fieldRt (w : Word) : Reg := w.extractLsb' 16 5
/-- `word[15:11]` (30_encoding.md rule R52). -/
def fieldRd (w : Word) : Reg := w.extractLsb' 11 5
/-- `word[10:6]` (30_encoding.md rule R52). -/
def fieldShamt (w : Word) : Shamt := w.extractLsb' 6 5
/-- `word[5:0]` (30_encoding.md rule R52). -/
def fieldFunct (w : Word) : BitVec 6 := w.extractLsb' 0 6
/-- `word[15:0]` (30_encoding.md rule R53). -/
def fieldImm (w : Word) : Imm16 := w.extractLsb' 0 16
/-- `word[25:0]` (30_encoding.md rule R54). -/
def fieldTarget (w : Word) : Target26 := w.extractLsb' 0 26

/-- The decoder: a pure, total function (30_encoding.md rules R51 to R55). -/
def decodeFields (w : Word) : Decoded :=
  if fieldOpcode w = 0#6 then
    .rType (fieldRs w) (fieldRt w) (fieldRd w) (fieldShamt w) (fieldFunct w)
  else if fieldOpcode w = 0x02#6 ∨ fieldOpcode w = 0x03#6 then
    .jType (fieldOpcode w) (fieldTarget w)
  else
    .iType (fieldOpcode w) (fieldRs w) (fieldRt w) (fieldImm w)

/-! ## The maps -/

/-- A row of the function map (30_encoding.md rule R58). -/
structure RRow where
  funct : BitVec 6
  make  : Reg → Reg → Reg → Shamt → Instr

/-- A row of the opcode map, I format (30_encoding.md rule R57). -/
structure IRow where
  opcode : BitVec 6
  make   : Reg → Reg → Imm16 → Instr

/-- A row of the opcode map, J format (30_encoding.md rule R57). -/
structure JRow where
  opcode : BitVec 6
  make   : Target26 → Instr

/-- The function map for opcode 0 (30_encoding.md rule R58). -/
def rRows : List RRow :=
  [⟨0x00#6, .sll⟩, ⟨0x02#6, .srl⟩, ⟨0x03#6, .sra⟩, ⟨0x08#6, .jr⟩, ⟨0x09#6, .jalr⟩, ⟨0x0C#6, .syscall⟩,
   ⟨0x10#6, .mfhi⟩, ⟨0x11#6, .mthi⟩, ⟨0x12#6, .mflo⟩, ⟨0x13#6, .mtlo⟩] ++
  [⟨0x18#6, .mult⟩, ⟨0x19#6, .multu⟩, ⟨0x1A#6, .div⟩, ⟨0x1B#6, .divu⟩, ⟨0x20#6, .add⟩, ⟨0x21#6, .addu⟩,
   ⟨0x22#6, .sub⟩, ⟨0x23#6, .subu⟩, ⟨0x24#6, .and⟩, ⟨0x25#6, .or⟩, ⟨0x26#6, .xor⟩, ⟨0x27#6, .nor⟩, ⟨0x2A#6, .slt⟩]

/-- The I-format rows of the opcode map (30_encoding.md rule R57). LBU and LHU stand in it whatever the parameter
`HAS_UNSIGNED_LOADS` says; where it is false their meaning takes the DecodeFault (43_loadstore.md rules R138, R139). -/
def iRows : List IRow :=
  [⟨0x04#6, .beq⟩, ⟨0x05#6, .bne⟩, ⟨0x06#6, .blez⟩, ⟨0x07#6, .bgtz⟩, ⟨0x08#6, .addi⟩, ⟨0x09#6, .addiu⟩, ⟨0x0A#6, .slti⟩,
   ⟨0x0C#6, .andi⟩, ⟨0x0D#6, .ori⟩, ⟨0x0E#6, .xori⟩, ⟨0x0F#6, .lui⟩] ++
  [⟨0x20#6, .lb⟩, ⟨0x21#6, .lh⟩, ⟨0x23#6, .lw⟩, ⟨0x24#6, .lbu⟩, ⟨0x25#6, .lhu⟩, ⟨0x28#6, .sb⟩, ⟨0x29#6, .sh⟩, ⟨0x2B#6, .sw⟩]

/-- The J-format rows of the opcode map (30_encoding.md rule R57). -/
def jRows : List JRow := [⟨0x02#6, .j⟩, ⟨0x03#6, .jal⟩]

/-- Dispatch: from the structural decoding to the one operation, or none (30_encoding.md rules R56 and R60). -/
def dispatch : Decoded → Except DecodeError Instr
  | .rType rs rt rd shamt funct =>
    match rRows.find? (fun r => r.funct == funct) with
    | some r => .ok (r.make rs rt rd shamt)
    | none => .error (.noFunct funct)
  | .iType opcode rs rt imm =>
    match iRows.find? (fun r => r.opcode == opcode) with
    | some r => .ok (r.make rs rt imm)
    | none => .error (.noOpcode opcode)
  | .jType opcode target =>
    match jRows.find? (fun r => r.opcode == opcode) with
    | some r => .ok (r.make target)
    | none => .error (.noOpcode opcode)

/-- From a word to the instruction it stands for (30_encoding.md rule R62: decode, then dispatch). -/
def decode (w : Word) : Except DecodeError Instr := dispatch (decodeFields w)

/-! ## Bytes -/

/-- A word's four bytes, the one at the lowest address first: little-endian (20_memory.md rule R34). -/
def wordBytes (w : Word) : List Byte :=
  [w.extractLsb' 0 8, w.extractLsb' 8 8, w.extractLsb' 16 8, w.extractLsb' 24 8]

/-- Decoding from bytes, the one at the lowest address first, with the bytes that follow the instruction
(30_encoding.md rule R50; 20_memory.md rule R34). -/
def decodeBytes : List Byte → Except DecodeError (Instr × List Byte)
  | b0 :: b1 :: b2 :: b3 :: rest =>
    match decode (b3 ++ b2 ++ b1 ++ b0) with
    | .ok i => .ok (i, rest)
    | .error e => .error e
  | short => .error (.truncated short.length)

/-- The instruction the decoder reads from the word `w` of `nbits` bits, the bits above them zero. -/
def decodeTableWord (nbits w : Nat) : Option Instr :=
  match decodeBytes (wordBytes (BitVec.ofNat 32 (w % 2 ^ nbits))) with
  | .ok (i, _) => some i
  | .error _ => none

/-! ## The encoder -/

/-- An R-format word (30_encoding.md rule R52). -/
def encodeR (rs rt rd : Reg) (shamt : Shamt) (funct : BitVec 6) : Word := 0#6 ++ rs ++ rt ++ rd ++ shamt ++ funct
/-- An I-format word (30_encoding.md rule R53). -/
def encodeI (opcode : BitVec 6) (rs rt : Reg) (imm : Imm16) : Word := opcode ++ rs ++ rt ++ imm
/-- A J-format word (30_encoding.md rule R54). -/
def encodeJ (opcode : BitVec 6) (target : Target26) : Word := opcode ++ target

/-- The word of an instruction (30_encoding.md rules R52 to R54, R57, R58). -/
def encode : Instr → Word
  | .sll rs rt rd sh => encodeR rs rt rd sh 0x00#6
  | .srl rs rt rd sh => encodeR rs rt rd sh 0x02#6
  | .sra rs rt rd sh => encodeR rs rt rd sh 0x03#6
  | .jr rs rt rd sh => encodeR rs rt rd sh 0x08#6
  | .jalr rs rt rd sh => encodeR rs rt rd sh 0x09#6
  | .syscall rs rt rd sh => encodeR rs rt rd sh 0x0C#6
  | .mfhi rs rt rd sh => encodeR rs rt rd sh 0x10#6
  | .mthi rs rt rd sh => encodeR rs rt rd sh 0x11#6
  | .mflo rs rt rd sh => encodeR rs rt rd sh 0x12#6
  | .mtlo rs rt rd sh => encodeR rs rt rd sh 0x13#6
  | .mult rs rt rd sh => encodeR rs rt rd sh 0x18#6
  | .multu rs rt rd sh => encodeR rs rt rd sh 0x19#6
  | .div rs rt rd sh => encodeR rs rt rd sh 0x1A#6
  | .divu rs rt rd sh => encodeR rs rt rd sh 0x1B#6
  | .add rs rt rd sh => encodeR rs rt rd sh 0x20#6
  | .addu rs rt rd sh => encodeR rs rt rd sh 0x21#6
  | .sub rs rt rd sh => encodeR rs rt rd sh 0x22#6
  | .subu rs rt rd sh => encodeR rs rt rd sh 0x23#6
  | .and rs rt rd sh => encodeR rs rt rd sh 0x24#6
  | .or rs rt rd sh => encodeR rs rt rd sh 0x25#6
  | .xor rs rt rd sh => encodeR rs rt rd sh 0x26#6
  | .nor rs rt rd sh => encodeR rs rt rd sh 0x27#6
  | .slt rs rt rd sh => encodeR rs rt rd sh 0x2A#6
  | .j target => encodeJ 0x02#6 target
  | .jal target => encodeJ 0x03#6 target
  | .beq rs rt imm => encodeI 0x04#6 rs rt imm
  | .bne rs rt imm => encodeI 0x05#6 rs rt imm
  | .blez rs rt imm => encodeI 0x06#6 rs rt imm
  | .bgtz rs rt imm => encodeI 0x07#6 rs rt imm
  | .addi rs rt imm => encodeI 0x08#6 rs rt imm
  | .addiu rs rt imm => encodeI 0x09#6 rs rt imm
  | .slti rs rt imm => encodeI 0x0A#6 rs rt imm
  | .andi rs rt imm => encodeI 0x0C#6 rs rt imm
  | .ori rs rt imm => encodeI 0x0D#6 rs rt imm
  | .xori rs rt imm => encodeI 0x0E#6 rs rt imm
  | .lui rs rt imm => encodeI 0x0F#6 rs rt imm
  | .lb rs rt imm => encodeI 0x20#6 rs rt imm
  | .lh rs rt imm => encodeI 0x21#6 rs rt imm
  | .lw rs rt imm => encodeI 0x23#6 rs rt imm
  | .lbu rs rt imm => encodeI 0x24#6 rs rt imm
  | .lhu rs rt imm => encodeI 0x25#6 rs rt imm
  | .sb rs rt imm => encodeI 0x28#6 rs rt imm
  | .sh rs rt imm => encodeI 0x29#6 rs rt imm
  | .sw rs rt imm => encodeI 0x2B#6 rs rt imm

end Sys2Proof
end

