-- ==== Sys2Proof/Machine/State.lean ====
section
/-! DEFINITION. The state of the machine (10_state.md), the reasons a host operation can fail, and the state after reset.

The spec's tuple `{current, redirect, mem, run, diag}` is kept flat: `current` is `pc gpr hi lo`, `run` is `runFlag
instructionCount programSizeWords`. `next` (10_state.md rule R16) is no state: a meaning computes it from the state it is
given. -/

namespace Sys2Proof.Machine

/-- The three sub-causes of a MemoryFault (20_memory.md rule R38). -/
inductive MemCause where
  | misaligned
  | outOfRange
  | straddle
deriving DecidableEq, Repr

/-- The fault kinds a cycle can raise (60_exceptions.md rule R180). -/
inductive FaultKind where
  | memoryFault
  | decodeFault
  | overflowFault
deriving DecidableEq, Repr

/-- The diagnostic record a fault leaves for the host (10_state.md rule R22; 60_exceptions.md rule R187; decision D21,
log 23). -/
structure DiagRecord where
  kind  : FaultKind
  /-- the sub-cause of a MemoryFault, otherwise none -/
  cause : Option MemCause
  /-- the fetch address of the faulting instruction -/
  pc    : Word
  /-- the raw instruction word, none for a fault at fetch -/
  word  : Option Word
  /-- the faulting address of a MemoryFault, otherwise none -/
  addr  : Option Word
  /-- the value a faulting store was to store, otherwise none -/
  value : Option Word
  /-- `instruction_count` at the time of the fault -/
  cycle : Word
deriving DecidableEq, Repr

/-- A call the core handed to the environment: the selector and the snapshot of the registers it saw
(45_system.md rule R172). -/
structure EnvCall where
  selector : Word
  gpr      : Vector Word 32
deriving DecidableEq, Repr

/-- The environment behind the system-call port, the parameter `Env` as plain data (00_scope.md rule R4; 45_system.md rule
R172; DESIGN CHOICE, log 5). -/
inductive EnvSource where
  /-- the same answer to every call, for ever; `constant none` is the spec's default -/
  | constant (answer : Option Word)
  /-- one total function of the selector and the snapshot, any one: `Config.env n` (log 43) -/
  | function (n : Nat)
  /-- a free input of each call, whatever the arguments: the call uses `Config.env n` and the next one `Config.env (n + 1)`
  (45_system.md rule R172, "a draw"; log 43) -/
  | draws (n : Nat)
deriving DecidableEq, Repr

/-- Memory: (address, byte) pairs in canonical form (Machine/Ops.lean, `Memory.wf`). -/
abbrev Memory := List Host.Cell

/-- The state of the core (10_state.md). -/
structure State where
  /-- the parameters (00_scope.md rule R4), which no step changes; DESIGN CHOICE, log 1 -/
  cfg : Config
  /-- the address of the next instruction to fetch (10_state.md rule R14) -/
  pc : Word
  /-- the general registers; element 0 reads as zero whatever it stores (10_state.md rules R11 and R12; log 31) -/
  gpr : Vector Word 32
  /-- HI (10_state.md rule R15) -/
  hi : Word
  /-- LO (10_state.md rule R15) -/
  lo : Word
  /-- the pending redirect (10_state.md rule R17; decision D9, log 13) -/
  redirect : Option Word
  /-- the MemorySpace (10_state.md rule R25) -/
  mem : Memory
  /-- RUNNING or HALTED (10_state.md rules R18 and R19) -/
  runFlag : Bool
  /-- committed cycles since reset (10_state.md rule R20) -/
  instructionCount : Word
  /-- the number of words the loader placed (10_state.md rule R21) -/
  programSizeWords : Word
  /-- the diagnostic record (10_state.md rule R22) -/
  diag : Option DiagRecord
  /-- the parameter `Env`, from which a non-halt system call is answered; `constant` and `function` no step changes.
  The MODEL's own field; DESIGN CHOICE, log 5 -/
  env : EnvSource
  /-- answers that come before those of `env`, one a call, oldest first: a beginning of the run written out. The MODEL's
  own field; DESIGN CHOICE, log 5 -/
  envAnswers : List (Option Word)
  /-- the calls handed to the environment so far, oldest first. The MODEL's own field; DESIGN CHOICE, log 6 -/
  envCalls : List EnvCall
deriving DecidableEq, Repr

/-- Why a host operation ends in a fault. NO STEP raises one: a fault of the hardware is the halt the spec describes
(60_exceptions.md rule R186), a next state (log 34). -/
inductive Fault where
  /-- raised by the host's memory read (`State.readWordHost`, `State.dump`): "a read_word that faults here returns the
  fault to the host and does not halt the core or change any state" (70_reset_and_hazards.md rule R216). Safe. -/
  | hostRead (cause : MemCause) (addr : Word)
deriving DecidableEq, Repr

/-- Why something has no meaning in the model. NO STEP raises one (log 34). -/
inductive Refusal where
  /-- an instruction without a meaning, rejected in its arm of `exec`; no arm is, so nothing raises it. Safe. -/
  | notModelled (mnemonic : String)
  /-- raised by `State.hostReset` for an image longer than TEXT (70_reset_and_hazards.md rule R212, decision D24,
  log 26). Safe. -/
  | imageTooLong (words : Nat)
  /-- raised by `State.dump` for bounds that are not aligned and in order, the precondition of
  70_reset_and_hazards.md rule R216 (log 37). Safe. -/
  | badDumpRange (start stop : Word)
deriving DecidableEq, Repr

/-- The machine right after reset with the empty image and the default parameters (10_state.md rule R26;
70_reset_and_hazards.md rule R210). Every value is the spec's, with the default `Env`; but `envAnswers` and `envCalls` are the
model's (DESIGN CHOICE, log 5, log 6). -/
def State.reset : State where
  cfg := Config.default
  pc := Config.default.text.base
  gpr := Vector.replicate 32 0#32
  hi := 0#32
  lo := 0#32
  redirect := none
  mem := []
  runFlag := true
  instructionCount := 0#32
  programSizeWords := 0#32
  diag := none
  env := .constant none
  envAnswers := []
  envCalls := []

end Sys2Proof.Machine
end

