-- ==== Sys2Proof/Machine/Ops.lean ====
section
/-! DEFINITION. The named operations over registers and memory (00_scope.md rule R7), the commit of a cycle
(40_cycle.md rule R75), and the taking of a fault (60_exceptions.md rule R186). -/

namespace Sys2Proof.Machine

/-- What a meaning answers. -/
abbrev Outcome := Host.Outcome State Fault Refusal

/-! ## Registers -/

/-- `x[r]` in a register array: register 0 reads as zero (10_state.md rule R12). -/
def gprRead (g : Vector Word 32) (r : Reg) : Word := if r = 0#5 then 0#32 else g[r.toNat]

/-- `x[r] <- v` in a register array: a write to register 0 is discarded (10_state.md rule R12). -/
def gprWrite (g : Vector Word 32) (r : Reg) (v : Word) : Vector Word 32 := if r = 0#5 then g else g.set r.toNat v

/-- `x[r]` (00_scope.md rule R7). -/
def State.reg (s : State) (r : Reg) : Word := gprRead s.gpr r

/-- `x[r] <- v` (00_scope.md rule R7). -/
def State.setReg (s : State) (r : Reg) (v : Word) : State := { s with gpr := gprWrite s.gpr r v }

/-- `hi <- v` (00_scope.md rule R7). -/
def State.setHi (s : State) (v : Word) : State := { s with hi := v }

/-- `lo <- v` (00_scope.md rule R7). -/
def State.setLo (s : State) (v : Word) : State := { s with lo := v }

/-- The snapshot of the registers, element 0 as zero (45_system.md rule R172; 70_reset_and_hazards.md rule R215). -/
def State.gprSnapshot (s : State) : Vector Word 32 := s.gpr.set 0 0#32

/-! ## Memory as bytes -/

/-- What an address no entry lists reads as: zero, the contents at reset (10_state.md rules R26 and R28;
20_memory.md rule R40; log 30). -/
def unlistedByte : Byte := 0#8

/-- The canonical form: addresses strictly rising, and no entry equal to what an unlisted address reads as. -/
def Memory.wf : Memory → Bool
  | [] => true
  | [(_, b)] => b != unlistedByte
  | (a, b) :: (a', b') :: m => b != unlistedByte && decide (a < a') && Memory.wf ((a', b') :: m)

/-- The byte at an address. -/
def Memory.read : Memory → Nat → Byte
  | [], _ => unlistedByte
  | (k, b) :: m, a => if k = a then b else Memory.read m a

/-- Memory without an entry for an address. -/
def Memory.erase : Memory → Nat → Memory
  | [], _ => []
  | (k, b) :: m, a => if k = a then Memory.erase m a else (k, b) :: Memory.erase m a

/-- Memory with an entry for an address, in its place by address. -/
def Memory.insert : Memory → Nat → Byte → Memory
  | [], a, b => [(a, b)]
  | (k, c) :: m, a, b =>
    if a < k then (a, b) :: (k, c) :: m
    else if a = k then (a, b) :: m
    else (k, c) :: Memory.insert m a b

/-- Memory with the byte at an address replaced, in canonical form. -/
def Memory.write (m : Memory) (a : Nat) (b : Byte) : Memory :=
  if b = unlistedByte then Memory.erase m a else Memory.insert m a b

/-- The little-endian value of the `n` bytes from an address on (20_memory.md rules R34 and R36). -/
def Memory.load (m : Memory) (a : Nat) : Nat → Word
  | 0 => 0#32
  | n + 1 => (Memory.load m (a + 1) n <<< 8) ||| (Memory.read m a).setWidth 32

/-- The low `n` bytes of a word stored little-endian from an address on (20_memory.md rules R34 and R37). -/
def Memory.store (m : Memory) (a : Nat) (v : Word) : Nat → Memory
  | 0 => m
  | n + 1 => Memory.write (Memory.store m (a + 1) (v >>> 8) n) a (v.setWidth 8)

/-- Words stored one after the other, 4 bytes apart (70_reset_and_hazards.md rule R212). -/
def Memory.storeWords (m : Memory) (a : Nat) : List Word → Memory
  | [] => m
  | w :: ws => Memory.storeWords (Memory.store m a w 4) (a + 4) ws

/-! ## Regions -/

/-- The four regions (20_memory.md rule R31). -/
def regionsOf (c : Config) : List Region := [c.text, c.data, c.kdata, c.ktext]

/-- The region holds the address (20_memory.md rule R30: both bounds inclusive). -/
def regionHolds (r : Region) (a : Nat) : Bool := decide (r.base.toNat ≤ a) && decide (a ≤ r.limit.toNat)

/-- The address lies in some region (20_memory.md rule R31). -/
def mapped (c : Config) (a : Nat) : Bool := (regionsOf c).any (fun r => regionHolds r a)

/-- An access of `n` bytes lies within one region (20_memory.md rule R33). -/
def contained (c : Config) (a n : Nat) : Bool :=
  (regionsOf c).any (fun r => regionHolds r a && regionHolds r (a + n - 1))

/-- The widths of an access (20_memory.md rule R41). -/
inductive Width where
  | byte
  | half
  | word
deriving DecidableEq, Repr

/-- The number of bytes of an access (20_memory.md rule R41). -/
def widthBytes : Width → Nat
  | .byte => 1
  | .half => 2
  | .word => 4

/-- What is wrong with an access, if anything, in the order of 20_memory.md rule R38 (decision D18, log 20). -/
def accessFault (c : Config) (addr : Word) (w : Width) : Option MemCause :=
  if addr.toNat % widthBytes w ≠ 0 then some .misaligned
  else if contained c addr.toNat (widthBytes w) then none
  else if mapped c addr.toNat then some .straddle
  else some .outOfRange

/-- `MemRead(addr, n)` (20_memory.md rule R36): the unsigned value, or the sub-cause of the MemoryFault. -/
def State.memRead (s : State) (addr : Word) (w : Width) : Except MemCause Word :=
  match accessFault s.cfg addr w with
  | some c => .error c
  | none => .ok (Memory.load s.mem addr.toNat (widthBytes w))

/-- `MemWrite(addr, n, v)` (20_memory.md rule R37): the state with the bytes stored, or the sub-cause of the
MemoryFault. -/
def State.memWrite (s : State) (addr : Word) (w : Width) (v : Word) : Except MemCause State :=
  match accessFault s.cfg addr w with
  | some c => .error c
  | none => .ok { s with mem := Memory.store s.mem addr.toNat v (widthBytes w) }

/-! ## The end of a cycle -/

/-- Commit (40_cycle.md rule R75, steps 1 to 5): `s` is the `next` buffer, whose `pc` and `redirect` are still those of
the executing instruction; `out` is the redirect that instruction recorded. The sums wrap (decision D19, log 21). -/
def State.commit (s : State) (out : Option Word) : State :=
  { s with
    pc := s.redirect.getD (s.pc + 4#32)
    gpr := s.gpr.set 0 0#32
    redirect := out
    instructionCount := s.instructionCount + 1#32 }

/-- An instruction that is not a control transfer ends its cycle. -/
def State.complete (s : State) : Outcome := .next (s.commit none)

/-- A control transfer ends its cycle, with the redirect it records, if any (44_control.md rule R150). -/
def State.transfer (s : State) (out : Option Word) : Outcome := .next (s.commit out)

/-- `run_flag <- false` and nothing else: step 6 of the commit (40_cycle.md rule R75), and the host's external stop
(60_exceptions.md rule R191). -/
def State.stop (s : State) : State := { s with runFlag := false }

/-! ## Taking a fault

The one shared operation (60_exceptions.md rules R186 and R187): nothing is vectored, the core halts, the record is
written, and everything else stays as it was before the cycle. There is no return from a fault (rule R189): only
`State.hostReset` leaves the halted state. -/

/-- Taking a fault (60_exceptions.md rules R186 and R187; decision D8, log 12). -/
def State.takeFault (s : State) (kind : FaultKind) (cause : Option MemCause) (word addr value : Option Word) : State :=
  { s with
    runFlag := false
    diag := some
      { kind := kind, cause := cause, pc := s.pc, word := word, addr := addr, value := value,
        cycle := s.instructionCount } }

/-- A DecodeFault on the raw word `w` (60_exceptions.md rule R181). -/
def State.decodeFault (s : State) (w : Word) : Outcome := .next (s.takeFault .decodeFault none (some w) none none)

/-- An OverflowFault of the instruction whose word is `w` (60_exceptions.md rule R183). -/
def State.overflowFault (s : State) (w : Word) : Outcome := .next (s.takeFault .overflowFault none (some w) none none)

/-- A MemoryFault at instruction fetch: no raw word (60_exceptions.md rule R187; 40_cycle.md rule R71). -/
def State.fetchFault (s : State) (c : MemCause) : Outcome :=
  .next (s.takeFault .memoryFault (some c) none (some s.pc) none)

/-- A MemoryFault of a load (60_exceptions.md rule R182). -/
def State.loadFault (s : State) (w : Word) (c : MemCause) (ea : Word) : Outcome :=
  .next (s.takeFault .memoryFault (some c) (some w) (some ea) none)

/-- A MemoryFault of a store of `v` (60_exceptions.md rules R182 and R187). -/
def State.storeFault (s : State) (w : Word) (c : MemCause) (ea v : Word) : Outcome :=
  .next (s.takeFault .memoryFault (some c) (some w) (some ea) (some v))

/-! ## Fetch -/

/-- The fetch of the word at `pc` (40_cycle.md rule R71). -/
def State.fetch (s : State) : Except MemCause Word := s.memRead s.pc .word

/-- The state with a word placed at `pc`, where the next fetch reads (log 32). -/
def State.placeWord (s : State) (w : Word) : State := { s with mem := Memory.store s.mem s.pc.toNat w 4 }

/-! ## The system-call port -/

/-- The environment's answer to a call (00_scope.md rule R4; 45_system.md rule R172; log 5, log 43). -/
def envSourceAnswer (e : EnvSource) (selector : Word) (gpr : Vector Word 32) : Option Word :=
  match e with
  | .constant a => a
  | .function n => Config.env n selector gpr
  | .draws n => Config.env n selector gpr

/-- The environment after a call: only a free input goes on to the next (log 43). -/
def envSourceNext : EnvSource → EnvSource
  | .constant a => .constant a
  | .function n => .function n
  | .draws n => .draws (n + 1)

/-- What the environment answers to a call now, seeing the selector and the snapshot of the registers (45_system.md rule
R172): the first of the written-out answers, or with none left the environment's own (log 5). -/
def State.envAnswer (s : State) (selector : Word) : Option Word :=
  match s.envAnswers with
  | [] => envSourceAnswer s.env selector s.gprSnapshot
  | a :: _ => a

/-- The environment after the call, which it has answered itself if no written-out answer was left (log 5). -/
def State.envAfterCall (s : State) : EnvSource :=
  match s.envAnswers with
  | [] => envSourceNext s.env
  | _ :: _ => s.env

/-- The call is handed to the environment, which sees the selector and the snapshot of the registers; its answer, if
any, is written to `gpr[2]` (45_system.md rule R172; decision D16, log 29). -/
def State.callEnv (s : State) (selector : Word) : State :=
  { s with
    gpr := match s.envAnswer selector with
      | some v => gprWrite s.gpr 2#5 v
      | none => s.gpr
    env := s.envAfterCall
    envAnswers := s.envAnswers.tail
    envCalls := s.envCalls ++ [{ selector := selector, gpr := s.gprSnapshot }] }

end Sys2Proof.Machine
end

