-- ==== Sys2Proof/Machine/Operands.lean ====
section
/-! DEFINITION. The operand forms (30_encoding.md rule R59) and the extensions of a loaded value (00_scope.md rule R7). -/

namespace Sys2Proof.Machine

/-- `sext_16(imm16)` (00_scope.md rule R7): ADDI, ADDIU, SLTI and every address offset. -/
def signedImm (imm : Imm16) : Word := imm.signExtend 32

/-- `zext_16(imm16)` (00_scope.md rule R7): ANDI, ORI, XORI. -/
def logicalImm (imm : Imm16) : Word := imm.setWidth 32

/-- `{imm16, 0x0000}` (30_encoding.md rule R59): LUI. -/
def upperImm (imm : Imm16) : Word := imm ++ 0#16

/-- The effective address, modulo 2^32 (43_loadstore.md rule R130; decision D19, log 21). -/
def State.effectiveAddress (s : State) (rs : Reg) (imm : Imm16) : Word := s.reg rs + signedImm imm

/-- The target of a branch at `pc` (44_control.md rule R159). -/
def branchTarget (pc : Word) (imm : Imm16) : Word := pc + 4#32 + (signedImm imm <<< 2)

/-- The target of J and JAL at `pc` (44_control.md rule R155; decision D27, log 27). -/
def jumpTarget (pc : Word) (target : Target26) : Word := (pc &&& 0xF0000000#32) ||| (target.setWidth 32 <<< 2)

/-- The link value: past the delay slot (44_control.md rule R161). -/
def linkAddress (pc : Word) : Word := pc + 8#32

/-- `sext_8` of the low byte (00_scope.md rule R7). -/
def signedByte (v : Word) : Word := (v.setWidth 8).signExtend 32

/-- `sext_16` of the low half-word (00_scope.md rule R7). -/
def signedHalf (v : Word) : Word := (v.setWidth 16).signExtend 32

/-- `zext_8` of the low byte (00_scope.md rule R7). -/
def unsignedByte (v : Word) : Word := (v.setWidth 8).setWidth 32

/-- `zext_16` of the low half-word (00_scope.md rule R7). -/
def unsignedHalf (v : Word) : Word := (v.setWidth 16).setWidth 32

/-- The link register (10_state.md rule R11). -/
def linkReg : Reg := 31#5

/-- The register of the system call's selector and result (10_state.md rule R11). -/
def syscallReg : Reg := 2#5

end Sys2Proof.Machine
end

