-- ==== Sys2Proof/Machine/Flags.lean ====
section
/-! DEFINITION. The hardware has no flags and no condition codes (10_state.md rule R23). What other machines record in
one is computed here: signed overflow (41_alu.md rule R110), which ADD, ADDI and SUB turn into a fault, and the result
of a comparison, which goes into a register or decides a branch. -/

namespace Sys2Proof.Machine

/-- Signed addition overflows: the operands agree in bit 31 and the sum does not (41_alu.md rule R110). -/
def addOverflows (a b : Word) : Bool := a.msb == b.msb && (a + b).msb != a.msb

/-- Signed subtraction overflows: the operands differ in bit 31 and the difference differs from the first
(41_alu.md rule R110). -/
def subOverflows (a b : Word) : Bool := a.msb != b.msb && (a - b).msb != a.msb

/-- `a <s b` (00_scope.md rule R7). -/
def signedLess (a b : Word) : Bool := decide (a.toInt < b.toInt)

/-- A comparison's result as a register value: 1 or 0 (41_alu.md rule R99). -/
def boolWord (b : Bool) : Word := if b then 1#32 else 0#32

/-- `x <s 0 or x = 0` (44_control.md rule R153; decision D13, log 17). -/
def atMostZero (a : Word) : Bool := decide (a.toInt ≤ 0)

/-- `0 <s x` (44_control.md rule R154; decision D13, log 17). -/
def aboveZero (a : Word) : Bool := decide (0 < a.toInt)

end Sys2Proof.Machine
end

