-- ==== Sys2Proof/Machine/Alu.lean ====
section
/-! DEFINITION. Arithmetic, logical and shift instructions (41_alu.md). Operand roles: decision D25, log 19. -/

namespace Sys2Proof.Machine

/-! ## Shared -/

/-- A result goes to its destination and the cycle ends (41_alu.md rule R90). -/
def State.result (s : State) (dest : Reg) (v : Word) : Outcome := (s.setReg dest v).complete

/-- Signed addition with the overflow fault; `w` is the instruction's word (41_alu.md rules R90, R91, R103; decision D7,
log 11). -/
def State.addChecked (s : State) (w : Word) (dest : Reg) (a b : Word) : Outcome :=
  if addOverflows a b then s.overflowFault w else s.result dest (a + b)

/-- Signed subtraction with the overflow fault (41_alu.md rules R90 and R93; decision D7, log 11). -/
def State.subChecked (s : State) (w : Word) (dest : Reg) (a b : Word) : Outcome :=
  if subOverflows a b then s.overflowFault w else s.result dest (a - b)

/-! ## Shifts by an immediate amount -/

/-- SLL (41_alu.md rule R100). -/
def execSll (rt rd : Reg) (shamt : Shamt) (s : State) : Outcome := s.result rd (s.reg rt <<< shamt.toNat)

/-- SRL (41_alu.md rule R101). -/
def execSrl (rt rd : Reg) (shamt : Shamt) (s : State) : Outcome := s.result rd (s.reg rt >>> shamt.toNat)

/-- SRA (41_alu.md rule R102). -/
def execSra (rt rd : Reg) (shamt : Shamt) (s : State) : Outcome := s.result rd ((s.reg rt).sshiftRight shamt.toNat)

/-! ## Three-register arithmetic -/

/-- ADD (41_alu.md rule R91). -/
def execAdd (rs rt rd : Reg) (shamt : Shamt) (s : State) : Outcome :=
  s.addChecked (encode (.add rs rt rd shamt)) rd (s.reg rs) (s.reg rt)

/-- ADDU (41_alu.md rule R92). -/
def execAddu (rs rt rd : Reg) (s : State) : Outcome := s.result rd (s.reg rs + s.reg rt)

/-- SUB (41_alu.md rule R93). -/
def execSub (rs rt rd : Reg) (shamt : Shamt) (s : State) : Outcome :=
  s.subChecked (encode (.sub rs rt rd shamt)) rd (s.reg rs) (s.reg rt)

/-- SUBU (41_alu.md rule R94). -/
def execSubu (rs rt rd : Reg) (s : State) : Outcome := s.result rd (s.reg rs - s.reg rt)

/-! ## Three-register logic -/

/-- AND (41_alu.md rule R95). -/
def execAnd (rs rt rd : Reg) (s : State) : Outcome := s.result rd (s.reg rs &&& s.reg rt)

/-- OR (41_alu.md rule R96). -/
def execOr (rs rt rd : Reg) (s : State) : Outcome := s.result rd (s.reg rs ||| s.reg rt)

/-- XOR (41_alu.md rule R97). -/
def execXor (rs rt rd : Reg) (s : State) : Outcome := s.result rd (s.reg rs ^^^ s.reg rt)

/-- NOR (41_alu.md rule R98; PRESUMED with the spec, log 38). -/
def execNor (rs rt rd : Reg) (s : State) : Outcome := s.result rd (~~~(s.reg rs ||| s.reg rt))

/-! ## Set on less than -/

/-- SLT (41_alu.md rule R99). -/
def execSlt (rs rt rd : Reg) (s : State) : Outcome := s.result rd (boolWord (signedLess (s.reg rs) (s.reg rt)))

/-! ## Immediate arithmetic and logic -/

/-- ADDI (41_alu.md rule R103). -/
def execAddi (rs rt : Reg) (imm : Imm16) (s : State) : Outcome :=
  s.addChecked (encode (.addi rs rt imm)) rt (s.reg rs) (signedImm imm)

/-- ADDIU (41_alu.md rule R104; decision D12, log 16). -/
def execAddiu (rs rt : Reg) (imm : Imm16) (s : State) : Outcome := s.result rt (s.reg rs + signedImm imm)

/-- SLTI (41_alu.md rule R105). -/
def execSlti (rs rt : Reg) (imm : Imm16) (s : State) : Outcome :=
  s.result rt (boolWord (signedLess (s.reg rs) (signedImm imm)))

/-- ANDI (41_alu.md rule R106). -/
def execAndi (rs rt : Reg) (imm : Imm16) (s : State) : Outcome := s.result rt (s.reg rs &&& logicalImm imm)

/-- ORI (41_alu.md rule R107). -/
def execOri (rs rt : Reg) (imm : Imm16) (s : State) : Outcome := s.result rt (s.reg rs ||| logicalImm imm)

/-- XORI (41_alu.md rule R108). -/
def execXori (rs rt : Reg) (imm : Imm16) (s : State) : Outcome := s.result rt (s.reg rs ^^^ logicalImm imm)

end Sys2Proof.Machine
end

