-- ==== Sys2Proof/Machine/Control.lean ====
section
/-! DEFINITION. Branches and jumps (44_control.md). Each records a redirect and never writes `pc`: the commit of the NEXT
instruction, the delay slot, applies it (rule R150; 40_cycle.md rules R75, R76 and, for a transfer in a delay slot, R80:
decision D10, log 14). -/

namespace Sys2Proof.Machine

/-! ## Shared -/

/-- A conditional branch (44_control.md rules R150 and R159). -/
def State.branch (s : State) (taken : Bool) (imm : Imm16) : Outcome :=
  s.transfer (if taken then some (branchTarget s.pc imm) else none)

/-- The link write of JAL and JALR, past the delay slot (44_control.md rules R156, R158 and R161). -/
def State.link (s : State) : State := s.setReg linkReg (linkAddress s.pc)

/-! ## Conditional branches -/

/-- BEQ (44_control.md rule R151). -/
def execBeq (rs rt : Reg) (imm : Imm16) (s : State) : Outcome := s.branch (decide (s.reg rs = s.reg rt)) imm

/-- BNE (44_control.md rule R152). -/
def execBne (rs rt : Reg) (imm : Imm16) (s : State) : Outcome := s.branch (decide (s.reg rs ≠ s.reg rt)) imm

/-- BLEZ (44_control.md rule R153). -/
def execBlez (rs : Reg) (imm : Imm16) (s : State) : Outcome := s.branch (atMostZero (s.reg rs)) imm

/-- BGTZ (44_control.md rule R154). -/
def execBgtz (rs : Reg) (imm : Imm16) (s : State) : Outcome := s.branch (aboveZero (s.reg rs)) imm

/-! ## Jumps -/

/-- J (44_control.md rule R155). -/
def execJ (target : Target26) (s : State) : Outcome := s.transfer (some (jumpTarget s.pc target))

/-- JAL (44_control.md rule R156). -/
def execJal (target : Target26) (s : State) : Outcome := s.link.transfer (some (jumpTarget s.pc target))

/-- JR (44_control.md rule R157). -/
def execJr (rs : Reg) (s : State) : Outcome := s.transfer (some (s.reg rs))

/-- JALR: the link register is always 31, and the target is read before the link write (44_control.md rule R158;
decision D11, log 15). -/
def execJalr (rs : Reg) (s : State) : Outcome := s.link.transfer (some (s.reg rs))

end Sys2Proof.Machine
end

