-- ==== Sys2Proof/Machine/LoadStore.lean ====
section
/-! DEFINITION. Loads, stores and LUI (43_loadstore.md). Operand roles: decision D25, log 19. -/

namespace Sys2Proof.Machine

/-! ## Shared -/

/-- A load: read, extend, write the destination; or the MemoryFault. `w` is the instruction's word
(43_loadstore.md rule R130). -/
def State.load (s : State) (w : Word) (ea : Word) (width : Width) (extend : Word → Word) (rt : Reg) : Outcome :=
  match s.memRead ea width with
  | .error c => s.loadFault w c ea
  | .ok v => (s.setReg rt (extend v)).complete

/-- A store: write the bytes; or the MemoryFault. `w` is the instruction's word (43_loadstore.md rule R130). -/
def State.store (s : State) (w : Word) (ea : Word) (width : Width) (v : Word) : Outcome :=
  match s.memWrite ea width v with
  | .error c => s.storeFault w c ea v
  | .ok t => t.complete

/-! ## Load upper immediate -/

/-- LUI (43_loadstore.md rule R137). -/
def execLui (rt : Reg) (imm : Imm16) (s : State) : Outcome := (s.setReg rt (upperImm imm)).complete

/-! ## Loads -/

/-- LB (43_loadstore.md rule R133). -/
def execLb (rs rt : Reg) (imm : Imm16) (s : State) : Outcome :=
  s.load (encode (.lb rs rt imm)) (s.effectiveAddress rs imm) .byte signedByte rt

/-- LH (43_loadstore.md rule R132). -/
def execLh (rs rt : Reg) (imm : Imm16) (s : State) : Outcome :=
  s.load (encode (.lh rs rt imm)) (s.effectiveAddress rs imm) .half signedHalf rt

/-- LW (43_loadstore.md rule R131). -/
def execLw (rs rt : Reg) (imm : Imm16) (s : State) : Outcome :=
  s.load (encode (.lw rs rt imm)) (s.effectiveAddress rs imm) .word id rt

/-- LBU, where the configuration has it; otherwise its word raises DecodeFault (43_loadstore.md rule R138;
decision D3, log 4). -/
def execLbu (rs rt : Reg) (imm : Imm16) (s : State) : Outcome :=
  if s.cfg.hasUnsignedLoads then
    s.load (encode (.lbu rs rt imm)) (s.effectiveAddress rs imm) .byte unsignedByte rt
  else s.decodeFault (encode (.lbu rs rt imm))

/-- LHU, where the configuration has it; otherwise its word raises DecodeFault (43_loadstore.md rule R139;
decision D3, log 4). -/
def execLhu (rs rt : Reg) (imm : Imm16) (s : State) : Outcome :=
  if s.cfg.hasUnsignedLoads then
    s.load (encode (.lhu rs rt imm)) (s.effectiveAddress rs imm) .half unsignedHalf rt
  else s.decodeFault (encode (.lhu rs rt imm))

/-! ## Stores -/

/-- SB (43_loadstore.md rule R136). -/
def execSb (rs rt : Reg) (imm : Imm16) (s : State) : Outcome :=
  s.store (encode (.sb rs rt imm)) (s.effectiveAddress rs imm) .byte (s.reg rt)

/-- SH (43_loadstore.md rule R135). -/
def execSh (rs rt : Reg) (imm : Imm16) (s : State) : Outcome :=
  s.store (encode (.sh rs rt imm)) (s.effectiveAddress rs imm) .half (s.reg rt)

/-- SW (43_loadstore.md rule R134). -/
def execSw (rs rt : Reg) (imm : Imm16) (s : State) : Outcome :=
  s.store (encode (.sw rs rt imm)) (s.effectiveAddress rs imm) .word (s.reg rt)

end Sys2Proof.Machine
end

