-- ==== Sys2Proof/Machine/MulDiv.lean ====
section
/-! DEFINITION. Multiply, divide and the moves of HI and LO (42_muldiv.md). Operand roles: decision D25, log 19. None of
these instructions can raise a fault (rule R120). -/

namespace Sys2Proof.Machine

/-! ## Shared -/

/-- A 64-bit product goes to HI and LO (42_muldiv.md rules R121 and R122). -/
def State.writeProduct (s : State) (p : BitVec 64) : State :=
  (s.setHi (p.extractLsb' 32 32)).setLo (p.extractLsb' 0 32)

/-- A quotient goes to LO and a remainder to HI (42_muldiv.md rules R123 and R124). -/
def State.writeQuotient (s : State) (q r : Word) : State := (s.setHi r).setLo q

/-- The signed quotient, rounded toward zero (42_muldiv.md rule R123; decision D14, log 18). -/
def signedQuotient (n d : Int) : Int := n.tdiv d

/-- The signed remainder that goes with it (42_muldiv.md rule R123; decision D14, log 18). -/
def signedRemainder (n d : Int) : Int := n - signedQuotient n d * d

/-- Signed division of `n` by `d`; by zero it leaves HI and LO and raises nothing (42_muldiv.md rules R123 and R129). -/
def State.divideSigned (s : State) (n d : Int) : Outcome :=
  if d = 0 then s.complete
  else (s.writeQuotient (BitVec.ofInt 32 (signedQuotient n d)) (BitVec.ofInt 32 (signedRemainder n d))).complete

/-- Unsigned division of `n` by `d`; by zero it leaves HI and LO and raises nothing (42_muldiv.md rules R124, R129). -/
def State.divideUnsigned (s : State) (n d : Nat) : Outcome :=
  if d = 0 then s.complete
  else (s.writeQuotient (BitVec.ofNat 32 (n / d)) (BitVec.ofNat 32 (n - n / d * d))).complete

/-! ## Multiply and divide -/

/-- MULT (42_muldiv.md rule R121). -/
def execMult (rs rt : Reg) (s : State) : Outcome :=
  (s.writeProduct (BitVec.ofInt 64 ((s.reg rs).toInt * (s.reg rt).toInt))).complete

/-- MULTU (42_muldiv.md rule R122). -/
def execMultu (rs rt : Reg) (s : State) : Outcome :=
  (s.writeProduct (BitVec.ofNat 64 ((s.reg rs).toNat * (s.reg rt).toNat))).complete

/-- DIV (42_muldiv.md rules R123 and R129). -/
def execDiv (rs rt : Reg) (s : State) : Outcome := s.divideSigned (s.reg rs).toInt (s.reg rt).toInt

/-- DIVU (42_muldiv.md rules R124 and R129). -/
def execDivu (rs rt : Reg) (s : State) : Outcome := s.divideUnsigned (s.reg rs).toNat (s.reg rt).toNat

/-! ## Moves -/

/-- MFHI (42_muldiv.md rule R125). -/
def execMfhi (rd : Reg) (s : State) : Outcome := (s.setReg rd s.hi).complete

/-- MFLO (42_muldiv.md rule R126). -/
def execMflo (rd : Reg) (s : State) : Outcome := (s.setReg rd s.lo).complete

/-- MTHI (42_muldiv.md rule R127). -/
def execMthi (rs : Reg) (s : State) : Outcome := (s.setHi (s.reg rs)).complete

/-- MTLO (42_muldiv.md rule R128). -/
def execMtlo (rs : Reg) (s : State) : Outcome := (s.setLo (s.reg rs)).complete

end Sys2Proof.Machine
end

