-- ==== Sys2Proof/Machine/System.lean ====
section
/-! DEFINITION. The system call, the only system instruction (45_system.md). -/

namespace Sys2Proof.Machine

/-- SYSCALL: the halt selector stops the core at this cycle's commit (45_system.md rules R170 and R171; decision D17,
log 29); any other selector goes to the environment (rule R172). -/
def execSyscall (s : State) : Outcome :=
  if s.reg syscallReg = s.cfg.haltSelector then .next (s.commit none).stop
  else (s.callEnv (s.reg syscallReg)).complete

end Sys2Proof.Machine
end

