-- ==== Sys2Proof/Machine/Dispatch.lean ====
section
/-! DEFINITION. From an instruction to its meaning (30_encoding.md rules R56 and R62). A meaning answers the state after
the whole cycle, commit included (40_cycle.md rule R70). -/

namespace Sys2Proof.Machine

def exec (i : Instr) (s : State) : Host.Outcome State Fault Refusal :=
  match i with
  | .sll _ rt rd sh => Sys2Proof.Machine.execSll rt rd sh s
  | .srl _ rt rd sh => Sys2Proof.Machine.execSrl rt rd sh s
  | .sra _ rt rd sh => Sys2Proof.Machine.execSra rt rd sh s
  | .jr rs _ _ _ => Sys2Proof.Machine.execJr rs s
  | .jalr rs _ _ _ => Sys2Proof.Machine.execJalr rs s
  | .syscall _ _ _ _ => Sys2Proof.Machine.execSyscall s
  | .mfhi _ _ rd _ => Sys2Proof.Machine.execMfhi rd s
  | .mthi rs _ _ _ => Sys2Proof.Machine.execMthi rs s
  | .mflo _ _ rd _ => Sys2Proof.Machine.execMflo rd s
  | .mtlo rs _ _ _ => Sys2Proof.Machine.execMtlo rs s
  | .mult rs rt _ _ => Sys2Proof.Machine.execMult rs rt s
  | .multu rs rt _ _ => Sys2Proof.Machine.execMultu rs rt s
  | .div rs rt _ _ => Sys2Proof.Machine.execDiv rs rt s
  | .divu rs rt _ _ => Sys2Proof.Machine.execDivu rs rt s
  | .add rs rt rd sh => Sys2Proof.Machine.execAdd rs rt rd sh s
  | .addu rs rt rd _ => Sys2Proof.Machine.execAddu rs rt rd s
  | .sub rs rt rd sh => Sys2Proof.Machine.execSub rs rt rd sh s
  | .subu rs rt rd _ => Sys2Proof.Machine.execSubu rs rt rd s
  | .and rs rt rd _ => Sys2Proof.Machine.execAnd rs rt rd s
  | .or rs rt rd _ => Sys2Proof.Machine.execOr rs rt rd s
  | .xor rs rt rd _ => Sys2Proof.Machine.execXor rs rt rd s
  | .nor rs rt rd _ => Sys2Proof.Machine.execNor rs rt rd s
  | .slt rs rt rd _ => Sys2Proof.Machine.execSlt rs rt rd s
  | .j t => Sys2Proof.Machine.execJ t s
  | .jal t => Sys2Proof.Machine.execJal t s
  | .beq rs rt imm => Sys2Proof.Machine.execBeq rs rt imm s
  | .bne rs rt imm => Sys2Proof.Machine.execBne rs rt imm s
  | .blez rs _ imm => Sys2Proof.Machine.execBlez rs imm s
  | .bgtz rs _ imm => Sys2Proof.Machine.execBgtz rs imm s
  | .addi rs rt imm => Sys2Proof.Machine.execAddi rs rt imm s
  | .addiu rs rt imm => Sys2Proof.Machine.execAddiu rs rt imm s
  | .slti rs rt imm => Sys2Proof.Machine.execSlti rs rt imm s
  | .andi rs rt imm => Sys2Proof.Machine.execAndi rs rt imm s
  | .ori rs rt imm => Sys2Proof.Machine.execOri rs rt imm s
  | .xori rs rt imm => Sys2Proof.Machine.execXori rs rt imm s
  | .lui _ rt imm => Sys2Proof.Machine.execLui rt imm s
  | .lb rs rt imm => Sys2Proof.Machine.execLb rs rt imm s
  | .lh rs rt imm => Sys2Proof.Machine.execLh rs rt imm s
  | .lw rs rt imm => Sys2Proof.Machine.execLw rs rt imm s
  | .lbu rs rt imm => Sys2Proof.Machine.execLbu rs rt imm s
  | .lhu rs rt imm => Sys2Proof.Machine.execLhu rs rt imm s
  | .sb rs rt imm => Sys2Proof.Machine.execSb rs rt imm s
  | .sh rs rt imm => Sys2Proof.Machine.execSh rs rt imm s
  | .sw rs rt imm => Sys2Proof.Machine.execSw rs rt imm s

end Sys2Proof.Machine
end

