-- ==== Sys2Proof/Machine/Step.lean ====
section
/-! DEFINITION. One cycle, and one step: a cycle while RUNNING, nothing while HALTED (40_cycle.md rules R70 and R78). -/

namespace Sys2Proof.Machine

/-- One cycle: fetch, decode, dispatch, execute, commit; or the fault of whichever comes first (40_cycle.md rules R70,
R72 and R77; 60_exceptions.md rule R185). -/
def cycle (s : State) : Host.Outcome State Fault Refusal :=
  match s.fetch with
  | .error c => s.fetchFault c
  | .ok w =>
    match decode w with
    | .error _ => s.decodeFault w
    | .ok i => exec i s

/-- `step(1)` (40_cycle.md rules R78 and R79; decision D29): a cycle if the core is RUNNING, otherwise nothing. -/
def step (s : State) : Host.Outcome State Fault Refusal :=
  if s.runFlag then cycle s else .next s

/-- The state with the instruction of `nbits` bits `w` stored where the next step fetches, the bits above it zero. The
loader's placing of a program is what it stands for (70_reset_and_hazards.md rule R212; log 32). -/
def State.withFetchWord (s : State) (nbits w : Nat) : State := s.placeWord (BitVec.ofNat 32 (w % 2 ^ nbits))

end Sys2Proof.Machine
end

