-- ==== Sys2Proof/Machine/HostApi.lean ====
section
/-! DEFINITION. The host's operations, all between cycles (00_scope.md rule R3; 70_reset_and_hazards.md rules R210 to
R217; log 25, log 41): reset with program load, the state write API, inspection, and running several cycles. The external
stop is `State.stop` (Machine/Ops.lean); the writes of HI and LO are `State.setHi` and `State.setLo`. -/

namespace Sys2Proof.Machine

/-! ## Reset and program load -/

/-- The image fits TEXT (70_reset_and_hazards.md rule R212; decision D24, log 26). -/
def imageFits (c : Config) (image : List Word) : Bool :=
  decide (4 * image.length ≤ c.text.limit.toNat - c.text.base.toNat + 1)

/-- The state `reset()` leaves before the load: everything zero, RUNNING at `TEXT_BASE` (70_reset_and_hazards.md rule
R210). The parameters stay, and so does the environment's side of the port, which is no state of the core (log 35). -/
def State.cleared (s : State) : State :=
  { State.reset with
    cfg := s.cfg
    pc := s.cfg.text.base
    env := s.env
    envAnswers := s.envAnswers
    envCalls := s.envCalls }

/-- The program load: the image's words from `TEXT_BASE` on, 4 bytes apart (70_reset_and_hazards.md rule R212). -/
def State.loadImage (s : State) (image : List Word) : State :=
  { s with
    mem := Memory.storeWords s.mem s.cfg.text.base.toNat image
    programSizeWords := BitVec.ofNat 32 image.length }

/-- `reset(image)`: clear, then load; an image longer than TEXT is refused (70_reset_and_hazards.md rules R210 and
R212; decision D24, log 26). -/
def State.hostReset (s : State) (image : List Word) : Outcome :=
  if imageFits s.cfg image then .next (s.cleared.loadImage image) else .refused (.imageTooLong image.length)

/-! ## State write -/

/-- `set_gpr(i, v)` (70_reset_and_hazards.md rule R214). -/
def State.hostSetGpr (s : State) (i : Reg) (v : Word) : State := s.setReg i v

/-! ## Inspection -/

/-- The read-only snapshot (70_reset_and_hazards.md rule R215). -/
structure Snapshot where
  pc               : Word
  gpr              : Vector Word 32
  hi               : Word
  lo               : Word
  instructionCount : Word
deriving DecidableEq, Repr

/-- What the host reads between cycles, element 0 of the registers as 0 (70_reset_and_hazards.md rule R215). -/
def State.snapshot (s : State) : Snapshot where
  pc := s.pc
  gpr := s.gprSnapshot
  hi := s.hi
  lo := s.lo
  instructionCount := s.instructionCount

/-- The host's `read_word`: the word, or the fault, which goes to the host and changes nothing
(70_reset_and_hazards.md rule R216). -/
def State.readWordHost (s : State) (a : Word) : Except Fault Word :=
  match s.memRead a .word with
  | .ok v => .ok v
  | .error c => .error (.hostRead c a)

/-- `n` words from `a` on, or the first fault (70_reset_and_hazards.md rule R216). -/
def State.dumpFrom (s : State) (a : Word) : Nat → Except Fault (List Word)
  | 0 => .ok []
  | n + 1 =>
    match s.readWordHost a with
    | .error f => .error f
    | .ok v =>
      match s.dumpFrom (a + 4#32) n with
      | .error f => .error f
      | .ok vs => .ok (v :: vs)

/-- The range dump: the words at `start`, `start + 4`, ..., `stop`, for aligned `start <= stop`; other bounds are refused
(70_reset_and_hazards.md rule R216; log 37). -/
def State.dump (s : State) (start stop : Word) : Host.Outcome (List Word) Fault Refusal :=
  if start.toNat % 4 = 0 ∧ stop.toNat % 4 = 0 ∧ start.toNat ≤ stop.toNat then
    match s.dumpFrom start ((stop.toNat - start.toNat) / 4 + 1) with
    | .ok vs => .next vs
    | .error f => .fault f
  else .refused (.badDumpRange start stop)

/-! ## Running -/

/-- `step(n)`, also written `run(n)`: `run_flag` is tested before each cycle (40_cycle.md rule R79). -/
def State.runFor (s : State) : Nat → Outcome
  | 0 => .next s
  | n + 1 =>
    if s.runFlag then
      match cycle s with
      | .next t => t.runFor n
      | .fault f => .fault f
      | .refused r => .refused r
    else .next s

/-- `run_to_completion()` ends in `t`: some number of cycles reaches it, and the core is HALTED there. A program that never
halts has no such `t` (40_cycle.md rule R79; 93_implementation_defined.md U18). -/
def State.RunsToCompletion (s t : State) : Prop := ∃ n, s.runFor n = .next t ∧ t.runFlag = false

end Sys2Proof.Machine
end

