-- ==== Sys2Proof/Safety.lean ====
section
/-! DEFINITION. The notions the statements are made of: how a run ends, the invariant of the machine, and what a
committed or a faulted cycle leaves changed and unchanged. -/

namespace Sys2Proof.Machine

/-! ## How a run ends (40_cycle.md rule R82) -/

/-- HALTED by a halt SYSCALL or the external stop: no record (40_cycle.md rule R82, (a) and (c)). -/
def State.HaltedClean (s : State) : Prop := s.runFlag = false ∧ s.diag = none

/-- HALTED by a fault: there is a record (40_cycle.md rule R82, (b)). -/
def State.HaltedByFault (s : State) : Prop := s.runFlag = false ∧ s.diag ≠ none

/-! ## The invariant -/

/-- The fields of a diagnostic record agree as the table of 60_exceptions.md rule R187 says: `cause` and `addr` exactly
for a MemoryFault; no `word` only at a fetch, whose address is `pc`; a `value` only for a data access. -/
def DiagRecord.shaped (d : DiagRecord) : Bool :=
  (d.cause.isSome == (d.kind == .memoryFault)) && (d.addr.isSome == (d.kind == .memoryFault))
    && (d.word.isSome || (d.kind == .memoryFault && d.addr == some d.pc && !d.value.isSome))
    && (!d.value.isSome || d.kind == .memoryFault)

/-- The invariant of the machine: the parameters meet their constraints (00_scope.md rule R5); memory is in canonical
form and lists nothing outside the regions (20_memory.md rule R31); the element of register 0 is zero (10_state.md rule
R12); and where there is a diagnostic record the core is halted, at the address and the count the record holds, and the
record has its shape (60_exceptions.md rules R186, R187). -/
structure State.Inv (s : State) : Prop where
  cfg    : s.cfg.wf = true
  memory : Memory.wf s.mem = true
  inside : s.mem.all (fun c => mapped s.cfg c.1) = true
  zero   : s.gpr[0] = 0#32
  halted : s.diag ≠ none → s.runFlag = false
  record : s.diag.all (fun d => d.pc == s.pc && d.cycle == s.instructionCount && d.shaped) = true

/-! ## What a cycle leaves -/

/-- Where the next instruction is fetched from after a commit (40_cycle.md rule R75). -/
def State.nextPc (s : State) : Word :=
  match s.redirect with
  | some target => target
  | none => s.pc + 4#32

/-- The part of a commit that every instruction shares; `out` is the redirect the instruction recorded
(40_cycle.md rule R75). -/
structure Commits (s t : State) (out : Option Word) : Prop where
  pc       : t.pc = s.nextPc
  redirect : t.redirect = out
  count    : t.instructionCount = s.instructionCount + 1#32
  zero     : t.gpr[0] = 0#32
  diag     : t.diag = s.diag
  program  : t.programSizeWords = s.programSizeWords
  cfg      : t.cfg = s.cfg

/-- The core keeps its run flag and the environment is not called. -/
structure Quiet (s t : State) : Prop where
  runFlag : t.runFlag = s.runFlag
  env     : t.env = s.env
  answers : t.envAnswers = s.envAnswers
  calls   : t.envCalls = s.envCalls

/-- Every general register reads as before. -/
def SameRegs (s t : State) : Prop := ∀ r : Reg, t.reg r = s.reg r

/-- Register `dest` reads as `v`, every other register as before; a write to register 0 is discarded
(10_state.md rule R12). -/
def OnlyReg (s t : State) (dest : Reg) (v : Word) : Prop :=
  ∀ r : Reg, t.reg r = if r = dest ∧ dest ≠ 0#5 then v else s.reg r

/-- HI and LO are as before. -/
def SameHiLo (s t : State) : Prop := t.hi = s.hi ∧ t.lo = s.lo

/-- Every byte of memory reads as before. -/
def SameMemory (s t : State) : Prop := ∀ a : Nat, Memory.read t.mem a = Memory.read s.mem a

/-- A committed cycle that writes `v` to register `dest` and records the redirect `out`: its result and its frame. -/
structure WritesReg (s t : State) (dest : Reg) (v : Word) (out : Option Word) : Prop where
  commits : Commits s t out
  quiet   : Quiet s t
  regs    : OnlyReg s t dest v
  hilo    : SameHiLo s t
  memory  : SameMemory s t

/-- A committed cycle that writes HI and LO only. -/
structure WritesHiLo (s t : State) (hi lo : Word) : Prop where
  commits : Commits s t none
  quiet   : Quiet s t
  regs    : SameRegs s t
  hi      : t.hi = hi
  lo      : t.lo = lo
  memory  : SameMemory s t

/-- A committed cycle that writes nothing but the redirect it records, `out`. -/
structure WritesNothing (s t : State) (out : Option Word) : Prop where
  commits : Commits s t out
  quiet   : Quiet s t
  regs    : SameRegs s t
  hilo    : SameHiLo s t
  memory  : SameMemory s t

/-- A committed cycle that stores the low `n` bytes of `v`, little-endian, at address `a`, and nothing else. -/
structure WritesMemory (s t : State) (a n : Nat) (v : Word) : Prop where
  commits : Commits s t none
  quiet   : Quiet s t
  regs    : SameRegs s t
  hilo    : SameHiLo s t
  stored  : ∀ k < n, Memory.read t.mem (a + k) = BitVec.ofNat 8 (v.toNat / 2 ^ (8 * k))
  frame   : ∀ b, b < a ∨ a + n ≤ b → Memory.read t.mem b = Memory.read s.mem b

/-- A faulting cycle: the core halts and leaves a record; nothing else changes (60_exceptions.md rules R186 and R187). -/
structure TakesFault (s t : State) (kind : FaultKind) (cause : Option MemCause) (word addr value : Option Word) :
    Prop where
  runFlag  : t.runFlag = false
  diag     : t.diag = some
    { kind := kind, cause := cause, pc := s.pc, word := word, addr := addr, value := value,
      cycle := s.instructionCount }
  pc       : t.pc = s.pc
  gpr      : t.gpr = s.gpr
  hi       : t.hi = s.hi
  lo       : t.lo = s.lo
  redirect : t.redirect = s.redirect
  mem      : t.mem = s.mem
  count    : t.instructionCount = s.instructionCount
  program  : t.programSizeWords = s.programSizeWords
  cfg      : t.cfg = s.cfg
  env      : t.env = s.env
  answers  : t.envAnswers = s.envAnswers
  calls    : t.envCalls = s.envCalls

end Sys2Proof.Machine

namespace Sys2Proof

/-! ## Kinds of instruction -/

/-- A control transfer: an instruction of 44_control.md. -/
def Instr.isTransfer : Instr → Bool
  | .beq .. | .bne .. | .blez .. | .bgtz .. | .j .. | .jal .. | .jr .. | .jalr .. => true
  | _ => false

/-- A store, with its base register, displacement and width (43_loadstore.md rules R134 to R136). -/
def Instr.asStore : Instr → Option (Reg × Imm16 × Machine.Width)
  | .sb rs _ imm => some (rs, imm, .byte)
  | .sh rs _ imm => some (rs, imm, .half)
  | .sw rs _ imm => some (rs, imm, .word)
  | _ => none

/-- SYSCALL. -/
def Instr.isSyscall : Instr → Bool
  | .syscall .. => true
  | _ => false

/-- An instruction that writes HI (10_state.md rule R15). -/
def Instr.writesHi : Instr → Bool
  | .mult .. | .multu .. | .div .. | .divu .. | .mthi .. => true
  | _ => false

/-- An instruction that writes LO (10_state.md rule R15). -/
def Instr.writesLo : Instr → Bool
  | .mult .. | .multu .. | .div .. | .divu .. | .mtlo .. => true
  | _ => false

end Sys2Proof
end

