-- ==== Sys2Proof/Certificates/Slice0/Obligations.lean ====
section
/-! DEFINITION. The statements for the provers, from the spec's numbered rules: encoding, the cycle, the state, every
instruction (its result, its completion and its frame), the faults, and the host's operations. `Commits`, `WritesReg`,
`WritesHiLo`, `WritesNothing`, `WritesMemory` and `TakesFault` are in Sys2Proof/Safety.lean: each names what changes and
what does not. -/

open Sys2Proof Sys2Proof.Machine

/-! ## Encoding -/

/-- DECODE AND ENCODE AGREE: decoding the word of any instruction, or its bytes followed by any others, gives the
instruction back with every field (30_encoding.md rules R52 to R58; the numbers are decision D1, log 7). -/
def Obligations.DecodeOfEncodeIsTheInstruction : Prop :=
  ∀ (i : Instr) (rest : List Byte),
    decode (encode i) = .ok i ∧ decodeBytes (wordBytes (encode i) ++ rest) = .ok (i, rest)

/-- The other direction: the encoder gives back the raw word of every word that decodes, ignored fields included; so the
word a fault records is the word that was fetched (30_encoding.md R56; 60_exceptions.md R187; log 40). -/
def Obligations.EncodeOfDecodeIsTheWord : Prop :=
  ∀ (w : Word) (i : Instr), decode w = .ok i → encode i = w

/-- The words that decode are exactly those of the two maps, every other word is rejected (30_encoding.md rules R57, R58,
R60; the numbers are decision D1, log 7, the closed list decision D2, log 8). The words of LBU and LHU, opcodes 0x24 and
0x25, are counted among them whatever the parameter HAS_UNSIGNED_LOADS says, which is the model's choice (log 4, decision
D3): where it is false their meaning takes the DecodeFault, see UnsignedLoadsAbsent and UnmappedWordsHalt. -/
def Obligations.ExactlyTheMappedWordsDecode : Prop :=
  ∀ w : Word,
    ((∃ i, decode w = .ok i) ↔
      (w.toNat / 2 ^ 26 = 0 ∧
        w.toNat % 2 ^ 6 ∈
          [0x00, 0x02, 0x03, 0x08, 0x09, 0x0C, 0x10, 0x11, 0x12, 0x13, 0x18, 0x19, 0x1A, 0x1B, 0x20, 0x21, 0x22, 0x23,
            0x24, 0x25, 0x26, 0x27, 0x2A]) ∨
      w.toNat / 2 ^ 26 ∈
        [0x02, 0x03, 0x04, 0x05, 0x06, 0x07, 0x08, 0x09, 0x0A, 0x0C, 0x0D, 0x0E, 0x0F, 0x20, 0x21, 0x23, 0x24, 0x25,
          0x28, 0x29, 0x2B]) ∧
    ((¬ ∃ i, decode w = .ok i) → ∃ e, decode w = .error e)

/-- The format and the fields of a word, by position: opcode 0 is R-format, opcodes 2 and 3 J-format, all others I-format
(30_encoding.md rules R51 to R54). A word has exactly one format, since `decodeFields` is a function. -/
def Obligations.FormatAndFieldsByPosition : Prop :=
  ∀ w : Word,
    (∀ (rs rt rd : Reg) (sh : Shamt) (fn : BitVec 6),
      decodeFields w = .rType rs rt rd sh fn ↔
        w.toNat = rs.toNat * 2 ^ 21 + rt.toNat * 2 ^ 16 + rd.toNat * 2 ^ 11 + sh.toNat * 2 ^ 6 + fn.toNat) ∧
    (∀ (op : BitVec 6) (t : Target26),
      decodeFields w = .jType op t ↔ (op.toNat = 2 ∨ op.toNat = 3) ∧ w.toNat = op.toNat * 2 ^ 26 + t.toNat) ∧
    (∀ (op : BitVec 6) (rs rt : Reg) (imm : Imm16),
      decodeFields w = .iType op rs rt imm ↔
        op.toNat ≠ 0 ∧ op.toNat ≠ 2 ∧ op.toNat ≠ 3 ∧
          w.toNat = op.toNat * 2 ^ 26 + rs.toNat * 2 ^ 21 + rt.toNat * 2 ^ 16 + imm.toNat)

/-- Words written out from the spec decode to the instructions they stand for: the three of Scenario A and one of the
double-buffer test (95_test_vectors.md S1, S2), and one word of each remaining family (Part 2). -/
def Obligations.SampleWordsDecode : Prop :=
  decode 0x24010005 = .ok (.addiu 0 1 5) ∧ decode 0x24020003 = .ok (.addiu 0 2 3) ∧
  decode 0x00221820 = .ok (.add 1 2 3 0) ∧ decode 0x00410820 = .ok (.add 2 1 1 0) ∧
  decode 0x00E21900 = .ok (.sll 7 2 3 4) ∧ decode 0x00222818 = .ok (.mult 1 2 5 0) ∧
  decode 0x8C22FFFC = .ok (.lw 1 2 0xFFFC) ∧ decode 0x1420FFFD = .ok (.bne 1 0 0xFFFD) ∧
  decode 0x08100004 = .ok (.j 0x0100004) ∧ decode 0x0040F809 = .ok (.jalr 2 0 31 0) ∧
  decode 0x03FFFFCC = .ok (.syscall 31 31 31 31) ∧ decode 0x00000000 = .ok (.sll 0 0 0 0) ∧
  decode 0xFFFFFFFF = .error (.noOpcode 0x3F) ∧ decode 0x0022182B = .error (.noFunct 0x2B)

/-- The operands an instruction assembles from its fields, as integers: the signed, logical and upper immediates, the
effective address, the branch and the jump target, the link address (30_encoding.md R59; 43_loadstore.md R130;
44_control.md R155, R159, R161; the wrap is decision D19, log 21). -/
def Obligations.OperandForms : Prop :=
  ∀ (imm : Imm16) (t : Target26) (pc : Word) (s : State) (rs : Reg),
    (signedImm imm).toInt = imm.toInt ∧
    (logicalImm imm).toNat = imm.toNat ∧
    (upperImm imm).toNat = imm.toNat * 2 ^ 16 ∧
    ((s.effectiveAddress rs imm).toNat : Int) = ((s.reg rs).toNat + imm.toInt) % 2 ^ 32 ∧
    ((branchTarget pc imm).toNat : Int) = (pc.toNat + 4 + 4 * imm.toInt) % 2 ^ 32 ∧
    (jumpTarget pc t).toNat = pc.toNat / 2 ^ 28 * 2 ^ 28 + 4 * t.toNat ∧
    (linkAddress pc).toNat = (pc.toNat + 8) % 2 ^ 32

/-! ## The cycle -/

/-- A STEP RUNS THE DECODED INSTRUCTION: where the core is RUNNING, the four bytes at an accessible `pc` decode, lowest
address first, to `i`, the step is `exec i`, with nothing around it (40_cycle.md R70; the commit is in the meaning). -/
def Obligations.StepRunsTheDecodedInstruction : Prop :=
  ∀ (s : State) (i : Instr), s.runFlag = true → accessFault s.cfg s.pc .word = none →
    decodeBytes [Memory.read s.mem s.pc.toNat, Memory.read s.mem (s.pc.toNat + 1), Memory.read s.mem (s.pc.toNat + 2),
      Memory.read s.mem (s.pc.toNat + 3)] = .ok (i, []) →
    step s = exec i s

/-- HALTED is absorbing: a step changes nothing, no host operation but reset makes the core RUN, and reset does
(40_cycle.md R78; 10_state.md R19). -/
def Obligations.HaltedIsAbsorbing : Prop :=
  ∀ s : State, s.runFlag = false →
    step s = .next s ∧
    (∀ n, s.runFor n = .next s) ∧
    (∀ r v, (s.hostSetGpr r v).runFlag = false) ∧ (∀ v, (s.setHi v).runFlag = false) ∧
    (∀ v, (s.setLo v).runFlag = false) ∧ s.stop.runFlag = false ∧
    (∀ image t, s.hostReset image = .next t → t.runFlag = true)

/-- No step stops the model: from every state, reachable or not, a step answers a next state, and so does every
instruction. A fault of the hardware is the halt the spec describes (60_exceptions.md R186; log 34). -/
def Obligations.EveryStepAnswersANextState : Prop :=
  (∀ s : State, ∃ t, step s = .next t) ∧ (∀ (i : Instr) (s : State), ∃ t, exec i s = .next t)

/-- A cycle commits or it faults, and nothing in between: it either does all that a commit does, or leaves everything but
the run flag and the record as it was (40_cycle.md R75, R77; decision D8, log 12). -/
def Obligations.EveryCycleCommitsOrFaults : Prop :=
  ∀ s t : State, s.runFlag = true → step s = .next t →
    Commits s t t.redirect ∨ ∃ kind cause word addr value, TakesFault s t kind cause word addr value

/-- The faults that come before any operand is read, in their order. A fetch that is misaligned, outside every region, or
past its region's end halts the core with the MemoryFault of that cause, `pc` as the address and no word; a fetched word
that is no instruction of the configuration halts it with a DecodeFault that records the word (40_cycle.md R71, R72;
60_exceptions.md R181, R185, R187; what the fault leaves is decision D8, log 12). -/
def Obligations.FetchAndDecodeFaultsHalt : Prop :=
  ∀ s : State, s.runFlag = true →
    (∀ c : MemCause, accessFault s.cfg s.pc .word = some c →
      ∃ t, step s = .next t ∧ TakesFault s t .memoryFault (some c) none (some s.pc) none) ∧
    (∀ w : Word, s.fetch = .ok w → (¬ ∃ i, decode w = .ok i ∧ i.wf s.cfg = true) →
      ∃ t, step s = .next t ∧ TakesFault s t .decodeFault none (some w) none none)

/-- DecodeFault: a word that no opcode and function code of the maps matches, LBU and LHU counted only where the
configuration has them, halts the core whatever the registers hold: the run flag is false, the record says DecodeFault,
and no further step changes anything, so the word is not skipped (60_exceptions.md R181). -/
def Obligations.UnmappedWordsHalt : Prop :=
  ∀ (s : State) (w : Word), s.runFlag = true → s.fetch = .ok w → (¬ ∃ i, decode w = .ok i ∧ i.wf s.cfg = true) →
    ∃ t d, step s = .next t ∧ t.runFlag = false ∧ t.diag = some d ∧ d.kind = .decodeFault ∧ step t = .next t

/-- What is wrong with an access: misaligned if the address is no multiple of the width; otherwise out of range if its
first byte lies in no region; otherwise a straddle if no region holds both its first and its last byte; otherwise nothing
(20_memory.md R33, R35, R36 to R38; the order is decision D18, log 20). Reads and writes fail alike. -/
def Obligations.AccessFaultCauses : Prop :=
  ∀ (s : State) (addr : Word) (w : Width) (v : Word),
    let a := addr.toNat
    let n := widthBytes w
    let regions := [s.cfg.text, s.cfg.data, s.cfg.kdata, s.cfg.ktext]
    let cause : Option MemCause :=
      if a % n ≠ 0 then some .misaligned
      else if ¬ ∃ r ∈ regions, r.base.toNat ≤ a ∧ a ≤ r.limit.toNat then some .outOfRange
      else if ¬ ∃ r ∈ regions, r.base.toNat ≤ a ∧ a + n - 1 ≤ r.limit.toNat then some .straddle
      else none
    accessFault s.cfg addr w = cause ∧
    (∀ c, cause = some c → s.memRead addr w = .error c ∧ s.memWrite addr w v = .error c) ∧
    (cause = none → (∃ u, s.memRead addr w = .ok u) ∧ (∃ t, s.memWrite addr w v = .ok t))

/-- One branch delay slot: after a control transfer that redirects to `T` commits with nothing pending before it, `pc` is
the next word, and the commit of the instruction there takes `pc` to `T`; after an instruction that records nothing, the
two following words execute in sequence (40_cycle.md R76; 70_reset_and_hazards.md R220). -/
def Obligations.OneDelaySlot : Prop :=
  ∀ s t u : State, s.redirect = none → step s = .next t → t.instructionCount ≠ s.instructionCount →
    step t = .next u → u.instructionCount ≠ t.instructionCount →
    t.pc = s.pc + 4#32 ∧
    (∀ target, t.redirect = some target → u.pc = target) ∧
    (t.redirect = none → u.pc = s.pc + 4#32 + 4#32)

/-- A control transfer in a delay slot: with `T1` pending, a transfer to `T2` commits; exactly one instruction at `T1`
executes, then control goes to `T2` (40_cycle.md R80: decision D10, log 14). -/
def Obligations.TransferInDelaySlot : Prop :=
  ∀ (s t u : State) (t1 t2 : Word), s.redirect = some t1 → step s = .next t →
    t.instructionCount ≠ s.instructionCount → t.redirect = some t2 → step t = .next u →
    u.instructionCount ≠ t.instructionCount →
    t.pc = t1 ∧ u.pc = t2

/-- Only a control transfer leaves a redirect pending: every other instruction that commits leaves none
(40_cycle.md R75 (4)). -/
def Obligations.OnlyTransfersRedirect : Prop :=
  ∀ (i : Instr) (s t : State), exec i s = .next t → t.instructionCount ≠ s.instructionCount →
    i.isTransfer = false → t.redirect = none

/-- The run flag: in a cycle it falls by a fault, which leaves its record, and by a SYSCALL with the halt selector, and by
nothing else; in particular by a fetch that faults, by a word that is no instruction, and by whatever leaves a new record;
between cycles by the external stop; it rises only by reset; and while it is false no cycle executes (10_state.md R19). -/
def Obligations.RunFlagTransitions : Prop :=
  (∀ s t : State, s.runFlag = true → s.diag = none → step s = .next t → t.runFlag = false →
    (∃ d, t.diag = some d ∧ (d.kind = .decodeFault ∨ d.kind = .memoryFault ∨ d.kind = .overflowFault)) ∨
    (∃ w i, s.fetch = .ok w ∧ decode w = .ok i ∧ i.isSyscall = true ∧ s.reg 2#5 = s.cfg.haltSelector)) ∧
  (∀ (s : State) (rs rt rd : Reg) (sh : Shamt), s.reg 2#5 = s.cfg.haltSelector →
    ∃ t, exec (.syscall rs rt rd sh) s = .next t ∧ t.runFlag = false) ∧
  (∀ s t : State, step s = .next t → t.diag ≠ s.diag → t.runFlag = false) ∧
  (∀ (i : Instr) (s t : State), exec i s = .next t → t.diag ≠ s.diag → t.runFlag = false) ∧
  (∀ (s : State) (w : Word), s.fetch = .ok w → (¬ ∃ i, decode w = .ok i ∧ i.wf s.cfg = true) →
    ∃ t, step s = .next t ∧ t.runFlag = false) ∧
  (∀ (s : State) (c : MemCause), s.fetch = .error c → ∃ t, step s = .next t ∧ t.runFlag = false) ∧
  (∀ s : State, s.runFlag = false → step s = .next s) ∧
  (∀ s : State, s.stop.runFlag = false) ∧
  (∀ (s : State) (r : Reg) (v : Word), (s.hostSetGpr r v).runFlag = s.runFlag ∧ (s.setHi v).runFlag = s.runFlag ∧
    (s.setLo v).runFlag = s.runFlag) ∧
  (∀ (s t : State) (image : List Word), s.hostReset image = .next t → t.runFlag = true)

/-- Memory changes only where a store writes: a byte that reads differently after a step lies in the bytes of the SB, SH or
SW that was fetched (20_memory.md R41, R49). -/
def Obligations.OnlyStoresChangeMemory : Prop :=
  ∀ (s t : State) (b : Nat), step s = .next t → Memory.read t.mem b ≠ Memory.read s.mem b →
    ∃ w i rs imm width, s.fetch = .ok w ∧ decode w = .ok i ∧ i.asStore = some (rs, imm, width) ∧
      (s.effectiveAddress rs imm).toNat ≤ b ∧ b < (s.effectiveAddress rs imm).toNat + widthBytes width

/-- HI is written by MULT, MULTU, DIV, DIVU and MTHI only, LO by MULT, MULTU, DIV, DIVU and MTLO only (10_state.md R15). -/
def Obligations.HiLoWrittenOnlyByTheirInstructions : Prop :=
  ∀ (i : Instr) (s t : State), exec i s = .next t →
    (t.hi ≠ s.hi → i.writesHi = true) ∧ (t.lo ≠ s.lo → i.writesLo = true)

/-- The parameters, the region bounds among them, are fixed for the life of the core: no step, no instruction and no host
operation changes them. So is the environment: no host operation changes it, and no step and no instruction does where it is
a constant or a function of the call, not a free input (20_memory.md R31; 00_scope.md R4; that the state carries them is log
1, how it holds the environment log 5). -/
def Obligations.ParametersAreFixed : Prop :=
  (∀ s t : State, step s = .next t → t.cfg = s.cfg) ∧
  (∀ (i : Instr) (s t : State), exec i s = .next t → t.cfg = s.cfg) ∧
  (∀ (s t : State) (image : List Word), s.hostReset image = .next t → t.cfg = s.cfg) ∧
  (∀ (s : State) (r : Reg) (v : Word),
    (s.hostSetGpr r v).cfg = s.cfg ∧ (s.setHi v).cfg = s.cfg ∧ (s.setLo v).cfg = s.cfg ∧ s.stop.cfg = s.cfg) ∧
  (∀ s t : State, (∀ n, s.env ≠ .draws n) → step s = .next t → t.env = s.env) ∧
  (∀ (i : Instr) (s t : State), (∀ n, s.env ≠ .draws n) → exec i s = .next t → t.env = s.env) ∧
  (∀ (s t : State) (image : List Word), s.hostReset image = .next t → t.env = s.env) ∧
  (∀ (s : State) (r : Reg) (v : Word),
    (s.hostSetGpr r v).env = s.env ∧ (s.setHi v).env = s.env ∧ (s.setLo v).env = s.env ∧ s.stop.env = s.env)

/-- No instruction can read the counter, the program size or the record: two machines that differ in these, in what the
environment was told and in nothing else take steps to machines that differ in nothing else (10_state.md R20, R21, R22). -/
def Obligations.CountersAndRecordAreNeverRead : Prop :=
  ∀ (s t : State) (n p : Word) (d : Option DiagRecord) (cs : List EnvCall), step s = .next t →
    ∃ t', step { s with instructionCount := n, programSizeWords := p, diag := d, envCalls := cs } = .next t' ∧
      t'.pc = t.pc ∧ t'.gpr = t.gpr ∧ t'.hi = t.hi ∧ t'.lo = t.lo ∧ t'.redirect = t.redirect ∧ t'.mem = t.mem ∧
      t'.runFlag = t.runFlag ∧ t'.env = t.env ∧ t'.envAnswers = t.envAnswers ∧ t'.cfg = t.cfg

/-! ## The invariant -/

/-- EVERY STEP KEEPS THE INVARIANT: memory stays canonical and within the regions, register 0 stays zero, and a record
means a halted core at the recorded address and count (10_state.md R12; 20_memory.md R31; 60_exceptions.md R186, R187). -/
def Obligations.EveryStepKeepsTheInvariant : Prop :=
  ∀ s t : State, s.Inv → step s = .next t → t.Inv

/-- The invariant holds right after reset (10_state.md R26; with the default parameters, log 2). -/
def Obligations.ResetMeetsTheInvariant : Prop := State.reset.Inv

/-- The host's operations keep the invariant: a register write, HI, LO, the stop, and a reset with an image
(70_reset_and_hazards.md R210, R212, R214; 60_exceptions.md R191; decisions D23, D24, log 25, log 26). -/
def Obligations.HostOperationsKeepTheInvariant : Prop :=
  ∀ s : State, s.Inv →
    (∀ r v, (s.hostSetGpr r v).Inv) ∧ (∀ v, (s.setHi v).Inv) ∧ (∀ v, (s.setLo v).Inv) ∧ s.stop.Inv ∧
    (∀ image t, s.hostReset image = .next t → t.Inv)

/-- Register 0 reads as zero in every state, and a write to it, by an instruction or by the host, changes no read of any
register (10_state.md R12). -/
def Obligations.RegisterZeroReadsZeroAndDiscardsWrites : Prop :=
  ∀ (s : State) (v : Word) (r : Reg),
    s.reg 0#5 = 0#32 ∧ (s.setReg 0#5 v).reg r = s.reg r ∧ (s.hostSetGpr 0#5 v).reg r = s.reg r ∧
    (∀ t, step s = .next t → t.reg 0#5 = 0#32) ∧
    (r ≠ 0#5 → (s.setReg r v).reg r = v)

/-- What reset leaves (10_state.md R26). The numbers of the parameters are the spec's defaults (log 2, log 3, log 4); that
redirect and record are none are decisions D9 and D21 (log 13, log 23). -/
def Obligations.ResetState : Prop :=
  State.reset.pc = State.reset.cfg.text.base ∧ (∀ r : Reg, State.reset.reg r = 0#32) ∧
  State.reset.hi = 0#32 ∧ State.reset.lo = 0#32 ∧ State.reset.redirect = none ∧
  (∀ a : Nat, Memory.read State.reset.mem a = 0#8) ∧ State.reset.runFlag = true ∧
  State.reset.instructionCount = 0#32 ∧ State.reset.programSizeWords = 0#32 ∧ State.reset.diag = none

/-! ## Memory -/

/-- Round trip: SW to an address, then LW from it, gives the exact value stored, whatever the registers and wherever the
access is good (20_memory.md R41; 43_loadstore.md R131, R134). -/
def Obligations.StoreThenLoadReturnsTheWord : Prop :=
  ∀ (s : State) (rs rt rt' : Reg) (imm : Imm16), accessFault s.cfg (s.effectiveAddress rs imm) .word = none →
    ∃ t u, exec (.sw rs rt imm) s = .next t ∧ exec (.lw rs rt' imm) t = .next u ∧
      (∀ r : Reg, u.reg r = if r = rt' ∧ rt' ≠ 0#5 then s.reg rt else s.reg r)

/-- Memory is little-endian and wider accesses are views of the same bytes: after a word is written, the bytes and the
half-words in it are its slices, the low ones at the low addresses (20_memory.md R34; half-words by derivation, log 28). -/
def Obligations.LittleEndianViews : Prop :=
  ∀ (s t : State) (a v : Word), s.memWrite a .word v = .ok t →
    t.memRead a .word = .ok v ∧
    t.memRead a .byte = .ok (v &&& 0xFF#32) ∧ t.memRead (a + 1#32) .byte = .ok ((v >>> 8) &&& 0xFF#32) ∧
    t.memRead (a + 2#32) .byte = .ok ((v >>> 16) &&& 0xFF#32) ∧ t.memRead (a + 3#32) .byte = .ok (v >>> 24) ∧
    t.memRead a .half = .ok (v &&& 0xFFFF#32) ∧ t.memRead (a + 2#32) .half = .ok (v >>> 16)

/-- The last word of TEXT is accessible and the address one past its start is not: at `TEXT_END - 3` a word access
succeeds, at `TEXT_END - 2` it faults; a byte access at `TEXT_END` succeeds (20_memory.md R39), for every value of the
parameters that meets 00_scope.md R5. -/
def Obligations.TextBoundary : Prop :=
  ∀ (s : State) (v : Word), s.cfg.wf = true →
    let last := s.cfg.text.limit
    (∃ u, s.memRead (last - 3#32) .word = .ok u) ∧ (∃ t, s.memWrite (last - 3#32) .word v = .ok t) ∧
    s.memRead (last - 2#32) .word = .error .misaligned ∧ s.memWrite (last - 2#32) .word v = .error .misaligned ∧
    (∃ u, s.memRead last .byte = .ok u)

/-- A store is seen by the very next fetch: a SW to the address the next instruction is fetched from makes that fetch read
the word stored (20_memory.md R46; 70_reset_and_hazards.md R223). -/
def Obligations.StoreIsSeenByTheNextFetch : Prop :=
  ∀ (s : State) (rs rt : Reg) (imm : Imm16), s.effectiveAddress rs imm = s.nextPc →
    accessFault s.cfg s.nextPc .word = none →
    ∃ t, exec (.sw rs rt imm) s = .next t ∧ t.fetch = .ok (s.reg rt)

/-! ## Arithmetic, logic, shifts -/

/-- The overflow predicates are the signed ranges: addition and subtraction overflow exactly where the exact result leaves
`[-2^31, 2^31 - 1]` (41_alu.md R110). -/
def Obligations.OverflowIsTheSignedRange : Prop :=
  ∀ a b : Word,
    (addOverflows a b = true ↔ ¬ (-2 ^ 31 ≤ a.toInt + b.toInt ∧ a.toInt + b.toInt ≤ 2 ^ 31 - 1)) ∧
    (subOverflows a b = true ↔ ¬ (-2 ^ 31 ≤ a.toInt - b.toInt ∧ a.toInt - b.toInt ≤ 2 ^ 31 - 1))

/-- ADD: opcode 0, function 0x20, `shamt` whatever. With `a`, `b` the operands and `r` their sum modulo 2^32: if `a` and
`b` agree in bit 31 and `r` differs from them there, OverflowFault is raised and no register is written; otherwise `r`
goes to `rd`, and nothing to register 0 (41_alu.md R91). -/
def Obligations.AddSumOrOverflow : Prop :=
  ∀ (s : State) (rs rt rd : Reg) (sh : Shamt),
    (∀ w : Word, w.toNat = rs.toNat * 2 ^ 21 + rt.toNat * 2 ^ 16 + rd.toNat * 2 ^ 11 + sh.toNat * 2 ^ 6 + 0x20 →
      decode w = .ok (.add rs rt rd sh)) ∧
    (let a := (s.reg rs).toNat
     let b := (s.reg rt).toNat
     let r := (a + b) % 2 ^ 32
     if a / 2 ^ 31 = b / 2 ^ 31 ∧ r / 2 ^ 31 ≠ a / 2 ^ 31 then
       ∃ t d, exec (.add rs rt rd sh) s = .next t ∧ t.diag = some d ∧ d.kind = .overflowFault ∧ SameRegs s t
     else ∃ t v, exec (.add rs rt rd sh) s = .next t ∧ v.toNat = r ∧ WritesReg s t rd v none)

/-- ADDI and SUB where the exact signed result fits 32 bits: it goes to the destination (41_alu.md R93, R103, R110; SUB's
operand order is decision D25, log 19). -/
def Obligations.AddiAndSub : Prop :=
  ∀ (s : State) (rs rt rd : Reg) (sh : Shamt) (imm : Imm16),
    (let r := (s.reg rs).toInt + imm.toInt
     (-2 ^ 31 ≤ r ∧ r ≤ 2 ^ 31 - 1) →
      ∃ t v, exec (.addi rs rt imm) s = .next t ∧ v.toInt = r ∧ WritesReg s t rt v none) ∧
    (let r := (s.reg rs).toInt - (s.reg rt).toInt
     (-2 ^ 31 ≤ r ∧ r ≤ 2 ^ 31 - 1) →
      ∃ t v, exec (.sub rs rt rd sh) s = .next t ∧ v.toInt = r ∧ WritesReg s t rd v none)

/-- ADD, ADDI and SUB where the exact signed result does not fit: the OverflowFault, the destination not written, also for
destination 0 (41_alu.md R90, R110; 60_exceptions.md R183; the halt is decision D7, log 11, what it leaves D8, log 12). -/
def Obligations.OverflowFaultsHalt : Prop :=
  ∀ (s : State) (rs rt rd : Reg) (sh : Shamt) (imm : Imm16),
    let fits (r : Int) : Prop := -2 ^ 31 ≤ r ∧ r ≤ 2 ^ 31 - 1
    let faults (i : Instr) : Prop :=
      ∃ t, exec i s = .next t ∧ TakesFault s t .overflowFault none (some (encode i)) none none
    (¬ fits ((s.reg rs).toInt + (s.reg rt).toInt) → faults (.add rs rt rd sh)) ∧
    (¬ fits ((s.reg rs).toInt + imm.toInt) → faults (.addi rs rt imm)) ∧
    (¬ fits ((s.reg rs).toInt - (s.reg rt).toInt) → faults (.sub rs rt rd sh))

/-- ADDU, SUBU, ADDIU: the sum or difference modulo 2^32 goes to the destination, never a fault (41_alu.md R92, R94, R104;
ADDIU's sign extension is decision D12, log 16, SUBU's operand order D25, log 19). -/
def Obligations.AdduSubuAddiu : Prop :=
  ∀ (s : State) (rs rt rd : Reg) (sh : Shamt) (imm : Imm16),
    (∃ t v, exec (.addu rs rt rd sh) s = .next t ∧
      v.toNat = ((s.reg rs).toNat + (s.reg rt).toNat) % 2 ^ 32 ∧ WritesReg s t rd v none) ∧
    (∃ t v, exec (.subu rs rt rd sh) s = .next t ∧
      (v.toNat : Int) = ((s.reg rs).toNat - (s.reg rt).toNat : Int) % 2 ^ 32 ∧ WritesReg s t rd v none) ∧
    (∃ t v, exec (.addiu rs rt imm) s = .next t ∧
      (v.toNat : Int) = ((s.reg rs).toNat + imm.toInt) % 2 ^ 32 ∧ WritesReg s t rt v none)

/-- AND, OR, XOR, NOR: each bit of the result is the operation on the two operands' bits (41_alu.md R95 to R98; NOR's
formula is general knowledge, log 38). -/
def Obligations.AndOrXorNor : Prop :=
  ∀ (s : State) (rs rt rd : Reg) (sh : Shamt),
    (∃ t v, exec (.and rs rt rd sh) s = .next t ∧ WritesReg s t rd v none ∧
      ∀ k < 32, v.getLsbD k = ((s.reg rs).getLsbD k && (s.reg rt).getLsbD k)) ∧
    (∃ t v, exec (.or rs rt rd sh) s = .next t ∧ WritesReg s t rd v none ∧
      ∀ k < 32, v.getLsbD k = ((s.reg rs).getLsbD k || (s.reg rt).getLsbD k)) ∧
    (∃ t v, exec (.xor rs rt rd sh) s = .next t ∧ WritesReg s t rd v none ∧
      ∀ k < 32, v.getLsbD k = ((s.reg rs).getLsbD k ^^ (s.reg rt).getLsbD k)) ∧
    (∃ t v, exec (.nor rs rt rd sh) s = .next t ∧ WritesReg s t rd v none ∧
      ∀ k < 32, v.getLsbD k = !((s.reg rs).getLsbD k || (s.reg rt).getLsbD k))

/-- ANDI, ORI, XORI: the low 16 bits combine with the immediate's, the high 16 with zeros (41_alu.md R106 to R108). -/
def Obligations.AndiOriXori : Prop :=
  ∀ (s : State) (rs rt : Reg) (imm : Imm16),
    (∃ t v, exec (.andi rs rt imm) s = .next t ∧ WritesReg s t rt v none ∧
      (∀ k < 16, v.getLsbD k = ((s.reg rs).getLsbD k && imm.getLsbD k)) ∧ v.toNat < 2 ^ 16) ∧
    (∃ t v, exec (.ori rs rt imm) s = .next t ∧ WritesReg s t rt v none ∧
      (∀ k < 16, v.getLsbD k = ((s.reg rs).getLsbD k || imm.getLsbD k)) ∧
      v.toNat / 2 ^ 16 = (s.reg rs).toNat / 2 ^ 16) ∧
    (∃ t v, exec (.xori rs rt imm) s = .next t ∧ WritesReg s t rt v none ∧
      (∀ k < 16, v.getLsbD k = ((s.reg rs).getLsbD k ^^ imm.getLsbD k)) ∧
      v.toNat / 2 ^ 16 = (s.reg rs).toNat / 2 ^ 16)

/-- SLT and SLTI: 1 if the signed value of the first operand is less, otherwise 0 (41_alu.md R99, R105). -/
def Obligations.SltAndSlti : Prop :=
  ∀ (s : State) (rs rt rd : Reg) (sh : Shamt) (imm : Imm16),
    (∃ t, exec (.slt rs rt rd sh) s = .next t ∧
      WritesReg s t rd (if (s.reg rs).toInt < (s.reg rt).toInt then 1#32 else 0#32) none) ∧
    (∃ t, exec (.slti rs rt imm) s = .next t ∧
      WritesReg s t rt (if (s.reg rs).toInt < imm.toInt then 1#32 else 0#32) none)

/-- SLL, SRL, SRA by `shamt`, whatever the ignored `rs` field: the product modulo 2^32, the quotient, and the floor of the
signed quotient by 2^shamt (41_alu.md R100 to R102; that `rt` is shifted is decision D25, log 19). -/
def Obligations.ShiftsByShamt : Prop :=
  ∀ (s : State) (rs rt rd : Reg) (sh : Shamt),
    (∃ t v, exec (.sll rs rt rd sh) s = .next t ∧ WritesReg s t rd v none ∧
      v.toNat = (s.reg rt).toNat * 2 ^ sh.toNat % 2 ^ 32) ∧
    (∃ t v, exec (.srl rs rt rd sh) s = .next t ∧ WritesReg s t rd v none ∧
      v.toNat = (s.reg rt).toNat / 2 ^ sh.toNat) ∧
    (∃ t v, exec (.sra rs rt rd sh) s = .next t ∧ WritesReg s t rd v none ∧
      v.toInt = (s.reg rt).toInt / 2 ^ sh.toNat)

/-- LUI: the immediate in the upper half, zeros below, whatever the ignored `rs` field; no fault (43_loadstore.md R137). -/
def Obligations.LuiLoadsTheUpperHalf : Prop :=
  ∀ (s : State) (rs rt : Reg) (imm : Imm16),
    ∃ t v, exec (.lui rs rt imm) s = .next t ∧ v.toNat = imm.toNat * 2 ^ 16 ∧ WritesReg s t rt v none

/-! ## Multiply, divide, HI and LO -/

/-- MULT and MULTU: HI and LO hold the upper and lower half of the 64-bit signed or unsigned product
(42_muldiv.md R121, R122). -/
def Obligations.MultAndMultuProducts : Prop :=
  ∀ (s : State) (rs rt rd : Reg) (sh : Shamt),
    (∃ t h l, exec (.mult rs rt rd sh) s = .next t ∧ WritesHiLo s t h l ∧
      (h.toNat * 2 ^ 32 + l.toNat : Int) = ((s.reg rs).toInt * (s.reg rt).toInt) % 2 ^ 64) ∧
    (∃ t h l, exec (.multu rs rt rd sh) s = .next t ∧ WritesHiLo s t h l ∧
      h.toNat * 2 ^ 32 + l.toNat = (s.reg rs).toNat * (s.reg rt).toNat)

/-- DIV and DIVU by a divisor other than zero: LO holds the quotient and HI the remainder. DIV rounds toward zero, the
remainder has the dividend's sign, and the one quotient that does not fit, -2^31 / -1, leaves LO = 0x80000000 and HI = 0
(42_muldiv.md R123, R124; decisions D14, D25, log 18, log 19). -/
def Obligations.DivisionByANonZeroDivisor : Prop :=
  ∀ (s : State) (rs rt rd : Reg) (sh : Shamt), s.reg rt ≠ 0#32 →
    (∃ t q r, exec (.div rs rt rd sh) s = .next t ∧ WritesHiLo s t r q ∧
      (let n := (s.reg rs).toInt
       let d := (s.reg rt).toInt
       if n = -2 ^ 31 ∧ d = -1 then q = 0x80000000#32 ∧ r = 0#32
       else n = q.toInt * d + r.toInt ∧ |r.toInt| < |d| ∧ (r.toInt < 0 → n < 0) ∧ (0 < r.toInt → 0 < n))) ∧
    (∃ t q r, exec (.divu rs rt rd sh) s = .next t ∧ WritesHiLo s t r q ∧
      (s.reg rs).toNat = q.toNat * (s.reg rt).toNat + r.toNat ∧ r.toNat < (s.reg rt).toNat)

/-- DIV and DIVU by zero commit, write nothing and raise nothing; a following MFHI or MFLO gives what HI or LO held
before, which after reset is 0 (42_muldiv.md R129). -/
def Obligations.DivisionByZero : Prop :=
  (State.reset.hi = 0#32 ∧ State.reset.lo = 0#32) ∧
  ∀ (s : State) (rs rt rd : Reg) (sh : Shamt) (i : Instr),
    i = .div rs rt rd sh ∨ i = .divu rs rt rd sh → s.reg rt = 0#32 →
    ∃ t, exec i s = .next t ∧ WritesNothing s t none ∧
      (∀ (rs' rt' rd' : Reg) (sh' : Shamt),
        (∃ u, exec (.mfhi rs' rt' rd' sh') t = .next u ∧ WritesReg t u rd' s.hi none) ∧
        (∃ u, exec (.mflo rs' rt' rd' sh') t = .next u ∧ WritesReg t u rd' s.lo none))

/-- MFHI, MFLO, MTHI, MTLO: a plain copy; the other of HI and LO is untouched (42_muldiv.md R125 to R128; the fields are
decision D25, log 19). -/
def Obligations.HiLoMoves : Prop :=
  ∀ (s : State) (rs rt rd : Reg) (sh : Shamt),
    (∃ t, exec (.mfhi rs rt rd sh) s = .next t ∧ WritesReg s t rd s.hi none) ∧
    (∃ t, exec (.mflo rs rt rd sh) s = .next t ∧ WritesReg s t rd s.lo none) ∧
    (∃ t, exec (.mthi rs rt rd sh) s = .next t ∧ WritesHiLo s t (s.reg rs) s.lo) ∧
    (∃ t, exec (.mtlo rs rt rd sh) s = .next t ∧ WritesHiLo s t s.hi (s.reg rs))

/-! ## Loads and stores -/

/-- LW, LH, LB where the access is good: the destination gets the word, or the half-word or byte sign-extended, of the
bytes at the effective address, lowest first (43_loadstore.md R130 to R133; decisions D19, D25, log 19, log 21). -/
def Obligations.SignedLoads : Prop :=
  ∀ (s : State) (rs rt : Reg) (imm : Imm16),
    let ea := s.effectiveAddress rs imm
    let byte : Nat → Byte := fun k => Memory.read s.mem (ea.toNat + k)
    (accessFault s.cfg ea .word = none →
      ∃ t, exec (.lw rs rt imm) s = .next t ∧ WritesReg s t rt (byte 3 ++ byte 2 ++ byte 1 ++ byte 0) none) ∧
    (accessFault s.cfg ea .half = none →
      ∃ t v, exec (.lh rs rt imm) s = .next t ∧ v.toInt = (byte 1 ++ byte 0).toInt ∧ WritesReg s t rt v none) ∧
    (accessFault s.cfg ea .byte = none →
      ∃ t v, exec (.lb rs rt imm) s = .next t ∧ v.toInt = (byte 0).toInt ∧ WritesReg s t rt v none)

/-- LBU and LHU where the configuration has them and the access is good: the byte or half-word zero-extended
(43_loadstore.md R138, R139; decision D3, log 4). -/
def Obligations.UnsignedLoads : Prop :=
  ∀ (s : State) (rs rt : Reg) (imm : Imm16), s.cfg.hasUnsignedLoads = true →
    let ea := s.effectiveAddress rs imm
    let byte : Nat → Byte := fun k => Memory.read s.mem (ea.toNat + k)
    (accessFault s.cfg ea .byte = none →
      ∃ t v, exec (.lbu rs rt imm) s = .next t ∧ v.toNat = (byte 0).toNat ∧ WritesReg s t rt v none) ∧
    (accessFault s.cfg ea .half = none →
      ∃ t v, exec (.lhu rs rt imm) s = .next t ∧ v.toNat = (byte 0).toNat + 256 * (byte 1).toNat ∧
        WritesReg s t rt v none)

/-- LBU and LHU where the configuration has them not: the DecodeFault, before any operand is read (43_loadstore.md R138,
R139; 30_encoding.md R60; decision D3, log 4). -/
def Obligations.UnsignedLoadsAbsent : Prop :=
  ∀ (s : State) (rs rt : Reg) (imm : Imm16), s.cfg.hasUnsignedLoads = false →
    (∃ t, exec (.lbu rs rt imm) s = .next t ∧
      TakesFault s t .decodeFault none (some (encode (.lbu rs rt imm))) none none) ∧
    (∃ t, exec (.lhu rs rt imm) s = .next t ∧
      TakesFault s t .decodeFault none (some (encode (.lhu rs rt imm))) none none)

/-- A load whose access is bad takes the MemoryFault with the effective address and writes no register, also for
destination 0 (43_loadstore.md R130; 60_exceptions.md R182, R187). -/
def Obligations.LoadsFaultOnBadAccess : Prop :=
  ∀ (s : State) (rs rt : Reg) (imm : Imm16) (c : MemCause),
    let ea := s.effectiveAddress rs imm
    let faults (i : Instr) : Prop :=
      ∃ t, exec i s = .next t ∧ TakesFault s t .memoryFault (some c) (some (encode i)) (some ea) none
    (accessFault s.cfg ea .word = some c → faults (.lw rs rt imm)) ∧
    (accessFault s.cfg ea .half = some c → faults (.lh rs rt imm)) ∧
    (accessFault s.cfg ea .byte = some c → faults (.lb rs rt imm)) ∧
    (s.cfg.hasUnsignedLoads = true →
      (accessFault s.cfg ea .half = some c → faults (.lhu rs rt imm)) ∧
      (accessFault s.cfg ea .byte = some c → faults (.lbu rs rt imm)))

/-- SW, SH, SB where the access is good: the low 4, 2 or 1 bytes of the source register stand at the effective address,
lowest first; every other byte, every register and HI and LO are as before (43_loadstore.md R134 to R136; 20_memory.md
R37; decisions D19, D25, log 19, log 21). -/
def Obligations.StoresWriteTheirBytes : Prop :=
  ∀ (s : State) (rs rt : Reg) (imm : Imm16),
    let ea := s.effectiveAddress rs imm
    (accessFault s.cfg ea .word = none →
      ∃ t, exec (.sw rs rt imm) s = .next t ∧ WritesMemory s t ea.toNat 4 (s.reg rt)) ∧
    (accessFault s.cfg ea .half = none →
      ∃ t, exec (.sh rs rt imm) s = .next t ∧ WritesMemory s t ea.toNat 2 (s.reg rt)) ∧
    (accessFault s.cfg ea .byte = none →
      ∃ t, exec (.sb rs rt imm) s = .next t ∧ WritesMemory s t ea.toNat 1 (s.reg rt))

/-- A store whose access is bad takes the MemoryFault with the effective address and the value, and changes no byte
(43_loadstore.md R134 to R136; 60_exceptions.md R182, R187; that the value is the whole register is log 23). -/
def Obligations.StoresFaultOnBadAccess : Prop :=
  ∀ (s : State) (rs rt : Reg) (imm : Imm16) (c : MemCause),
    let ea := s.effectiveAddress rs imm
    let faults (i : Instr) : Prop :=
      ∃ t, exec i s = .next t ∧ TakesFault s t .memoryFault (some c) (some (encode i)) (some ea) (some (s.reg rt))
    (accessFault s.cfg ea .word = some c → faults (.sw rs rt imm)) ∧
    (accessFault s.cfg ea .half = some c → faults (.sh rs rt imm)) ∧
    (accessFault s.cfg ea .byte = some c → faults (.sb rs rt imm))

/-! ## Branches and jumps -/

/-- BEQ and BNE: the redirect goes to the branch target if all 32 bits of the registers are equal, or differ, and there is
none otherwise; nothing else is written (44_control.md R151, R152, R159). -/
def Obligations.BeqAndBne : Prop :=
  ∀ (s : State) (rs rt : Reg) (imm : Imm16),
    ∃ target : Word, (target.toNat : Int) = (s.pc.toNat + 4 + 4 * imm.toInt) % 2 ^ 32 ∧
      (∃ t, exec (.beq rs rt imm) s = .next t ∧
        WritesNothing s t (if s.reg rs = s.reg rt then some target else none)) ∧
      (∃ t, exec (.bne rs rt imm) s = .next t ∧
        WritesNothing s t (if s.reg rs = s.reg rt then none else some target))

/-- BLEZ and BGTZ: the redirect goes to the branch target if the register, as signed, is at most zero, or above zero;
each is the other's complement (44_control.md R153, R154, R159; the signed reading is decision D13, log 17). -/
def Obligations.BlezAndBgtz : Prop :=
  ∀ (s : State) (rs rt : Reg) (imm : Imm16),
    ∃ target : Word, (target.toNat : Int) = (s.pc.toNat + 4 + 4 * imm.toInt) % 2 ^ 32 ∧
      (∃ t, exec (.blez rs rt imm) s = .next t ∧
        WritesNothing s t (if (s.reg rs).msb = true ∨ s.reg rs = 0#32 then some target else none)) ∧
      (∃ t, exec (.bgtz rs rt imm) s = .next t ∧
        WritesNothing s t (if (s.reg rs).msb = true ∨ s.reg rs = 0#32 then none else some target))

/-- JAL: opcode 3 in the J format; register 31 gets the jump's address plus 8, modulo 2^32, and the redirect goes to the
word `target26` of the jump's own 256 MB segment; nothing else is written (44_control.md R156). -/
def Obligations.JumpAndLink : Prop :=
  ∀ (s : State) (target : Target26),
    (∀ w : Word, w.toNat = 3 * 2 ^ 26 + target.toNat → decode w = .ok (.jal target)) ∧
    ∃ t dest link, exec (.jal target) s = .next t ∧
      dest.toNat = s.pc.toNat / 2 ^ 28 * 2 ^ 28 + 4 * target.toNat ∧ link.toNat = (s.pc.toNat + 8) % 2 ^ 32 ∧
      WritesReg s t 31#5 link (some dest)

/-- J, JR and JALR: the redirect goes to the word `target26` of the jump's own 256 MB segment, or to the value of the
register before the instruction, whatever it is; JALR links register 31 with `pc + 8` and ignores `rd`, also where `rs` is
31 (44_control.md R155, R157, R158; decisions D11, D27, log 15, log 27). -/
def Obligations.JumpAndRegisterJumps : Prop :=
  ∀ (s : State) (target : Target26) (rs rt rd : Reg) (sh : Shamt),
    (∃ t dest, exec (.j target) s = .next t ∧ dest.toNat = s.pc.toNat / 2 ^ 28 * 2 ^ 28 + 4 * target.toNat ∧
      WritesNothing s t (some dest)) ∧
    (∃ t, exec (.jr rs rt rd sh) s = .next t ∧ WritesNothing s t (some (s.reg rs))) ∧
    (∃ t link, exec (.jalr rs rt rd sh) s = .next t ∧ link.toNat = (s.pc.toNat + 8) % 2 ^ 32 ∧
      WritesReg s t 31#5 link (some (s.reg rs)))

/-! ## System call -/

/-- SYSCALL with the halt selector in register 2 commits like any instruction and stops the core: no register, HI, LO or
byte changes, no record is left, the environment is not called (45_system.md R170, R171; decision D17, log 29). -/
def Obligations.SyscallHalts : Prop :=
  ∀ (s : State) (rs rt rd : Reg) (sh : Shamt), s.reg 2#5 = s.cfg.haltSelector →
    ∃ t, exec (.syscall rs rt rd sh) s = .next t ∧ Commits s t none ∧ t.runFlag = false ∧ SameRegs s t ∧
      SameHiLo s t ∧ SameMemory s t ∧ t.env = s.env ∧ t.envAnswers = s.envAnswers ∧ t.envCalls = s.envCalls

/-- SYSCALL with any other selector hands the selector and a snapshot of the registers to the environment and commits; an
answer goes to register 2, and with none nothing is written; nothing else changes. The answer is the next one written out,
or with none left that of the environment: its constant, its function of the selector and the snapshot, or a free input
(45_system.md R170, R172; 00_scope.md R4; decision D16, log 29; how the environment is held is log 5, log 6, log 43; the
statement holds for every value of `Config.env`). -/
def Obligations.SyscallCallsTheEnvironment : Prop :=
  ∀ (s : State) (rs rt rd : Reg) (sh : Shamt), s.reg 2#5 ≠ s.cfg.haltSelector →
    ∃ t call, exec (.syscall rs rt rd sh) s = .next t ∧ Commits s t none ∧ t.runFlag = s.runFlag ∧
      SameHiLo s t ∧ SameMemory s t ∧
      (let answer : Option Word :=
        match s.envAnswers, s.env with
        | a :: _, _ => a
        | [], .constant a => a
        | [], .function n => Config.env n call.selector call.gpr
        | [], .draws n => Config.env n call.selector call.gpr
       match answer with
        | some v => OnlyReg s t 2#5 v
        | none => SameRegs s t) ∧
      t.envAnswers = s.envAnswers.tail ∧
      t.env = (match s.envAnswers, s.env with
        | [], .draws n => .draws (n + 1)
        | _, e => e) ∧
      t.envCalls = s.envCalls ++ [call] ∧ call.selector = s.reg 2#5 ∧
      (∀ r : Reg, call.gpr[r.toNat] = s.reg r)

/-! ## The host -/

/-- Reset with an image that fits TEXT clears everything and loads the image from `TEXT_BASE` on, word by word; every
other byte is zero; a longer image is refused (70_reset_and_hazards.md R210, R212; 10_state.md R26; decision D24,
log 26; that the parameters and the port stay is log 35). -/
def Obligations.ResetLoadsTheImage : Prop :=
  ∀ (s : State) (image : List Word), s.cfg.wf = true →
    (4 * image.length ≤ s.cfg.text.limit.toNat - s.cfg.text.base.toNat + 1 →
      ∃ t, s.hostReset image = .next t ∧ t.pc = s.cfg.text.base ∧ (∀ r : Reg, t.reg r = 0#32) ∧ t.hi = 0#32 ∧
        t.lo = 0#32 ∧ t.redirect = none ∧ t.diag = none ∧ t.instructionCount = 0#32 ∧ t.runFlag = true ∧
        t.programSizeWords.toNat = image.length ∧ t.cfg = s.cfg ∧ t.env = s.env ∧ t.envAnswers = s.envAnswers ∧
        t.envCalls = s.envCalls ∧
        (∀ (k : Nat) (w : Word), image[k]? = some w →
          t.memRead (s.cfg.text.base + BitVec.ofNat 32 (4 * k)) .word = .ok w) ∧
        (∀ b : Nat, b < s.cfg.text.base.toNat ∨ s.cfg.text.base.toNat + 4 * image.length ≤ b →
          Memory.read t.mem b = 0#8)) ∧
    (¬ 4 * image.length ≤ s.cfg.text.limit.toNat - s.cfg.text.base.toNat + 1 →
      s.hostReset image = .refused (.imageTooLong image.length))

/-- The state write API and the external stop touch only what they name, in either state of the core
(70_reset_and_hazards.md R214; 60_exceptions.md R191; decision D23, log 25). -/
def Obligations.HostWritesTouchOnlyWhatTheyName : Prop :=
  ∀ (s : State) (r : Reg) (v : Word),
    (OnlyReg s (s.hostSetGpr r v) r v ∧ { s.hostSetGpr r v with gpr := s.gpr } = s) ∧
    ((s.setHi v).hi = v ∧ { s.setHi v with hi := s.hi } = s) ∧
    ((s.setLo v).lo = v ∧ { s.setLo v with lo := s.lo } = s) ∧
    (s.stop.runFlag = false ∧ { s.stop with runFlag := s.runFlag } = s)

/-- The memory dump reads the words at `start`, `start + 4`, ..., `stop`, for aligned `start <= stop`: where each access is
good it answers them in order, and where one is not it gives the host the fault of the first bad word, with its address. The
words, the fault or the refusal are its whole answer: there is no next state, so the core is as it was
(70_reset_and_hazards.md R216). Bounds that are not aligned, or a start above the stop, it refuses: the model's choice (log
37). -/
def Obligations.DumpReadsTheRange : Prop :=
  (∀ (s : State) (start : Word) (n : Nat), start.toNat + 4 * n < 2 ^ 32 → start.toNat % 4 = 0 →
    (∀ k ≤ n, accessFault s.cfg (start + BitVec.ofNat 32 (4 * k)) .word = none) →
    ∃ vs, s.dump start (start + BitVec.ofNat 32 (4 * n)) = .next vs ∧ vs.length = n + 1 ∧
      ∀ k ≤ n, vs[k]? = some (Memory.load s.mem (start.toNat + 4 * k) 4)) ∧
  (∀ (s : State) (start : Word) (m n : Nat) (c : MemCause), start.toNat + 4 * n < 2 ^ 32 → start.toNat % 4 = 0 → m ≤ n →
    (∀ k < m, accessFault s.cfg (start + BitVec.ofNat 32 (4 * k)) .word = none) →
    accessFault s.cfg (start + BitVec.ofNat 32 (4 * m)) .word = some c →
    s.dump start (start + BitVec.ofNat 32 (4 * n)) = .fault (.hostRead c (start + BitVec.ofNat 32 (4 * m)))) ∧
  (∀ (s : State) (start stop : Word),
    ¬ (start.toNat % 4 = 0 ∧ stop.toNat % 4 = 0 ∧ start.toNat ≤ stop.toNat) →
    s.dump start stop = .refused (.badDumpRange start stop))

/-- `step(n)` is n steps, the run flag tested before each; a halted core runs nothing; running a cycles then b is running
a + b, so a run may be cut anywhere, in a delay slot too; `run_to_completion()` is `step(n)` for every n from the one that
halts the core on, and has no end where no n halts it (40_cycle.md R79). -/
def Obligations.RunsCompose : Prop :=
  ∀ (s : State) (a b : Nat),
    s.runFor 0 = .next s ∧ (s.runFlag = false → s.runFor a = .next s) ∧ s.runFor 1 = step s ∧
    s.runFor a = Host.Core.run Sys2Proof.core a s ∧
    (∃ t, s.runFor a = .next t ∧ s.runFor (a + b) = t.runFor b ∧
      (t.runFlag = false → s.RunsToCompletion t ∧ s.runFor (a + b) = .next t ∧
        ∀ u, s.RunsToCompletion u → u = t)) ∧
    ((∀ n t, s.runFor n = .next t → t.runFlag = true) → ¬ ∃ t, s.RunsToCompletion t)
end

