-- ==== Sys2Proof/Laws/Decode.lean ====
section
/-! SUPPORT. The encoder and the field extractors undo each other, format by format (30_encoding.md rules R51 to R54),
and the maps hold no key twice (rule R56: exactly one operation). -/

namespace Sys2Proof

/-! ## The fields of an encoded word -/

@[simp] theorem fieldOpcode_encodeR (rs rt rd : Reg) (sh : Shamt) (f : BitVec 6) : fieldOpcode (encodeR rs rt rd sh f) = 0#6 := by
  apply BitVec.eq_of_getLsbD_eq
  intro i hi
  simp only [fieldOpcode, encodeR, BitVec.getLsbD_extractLsb', BitVec.getLsbD_append]
  interval_cases i <;> simp

@[simp] theorem fieldRs_encodeR (rs rt rd : Reg) (sh : Shamt) (f : BitVec 6) : fieldRs (encodeR rs rt rd sh f) = rs := by
  apply BitVec.eq_of_getLsbD_eq
  intro i hi
  simp only [fieldRs, encodeR, BitVec.getLsbD_extractLsb', BitVec.getLsbD_append]
  interval_cases i <;> simp

@[simp] theorem fieldRt_encodeR (rs rt rd : Reg) (sh : Shamt) (f : BitVec 6) : fieldRt (encodeR rs rt rd sh f) = rt := by
  apply BitVec.eq_of_getLsbD_eq
  intro i hi
  simp only [fieldRt, encodeR, BitVec.getLsbD_extractLsb', BitVec.getLsbD_append]
  interval_cases i <;> simp

@[simp] theorem fieldRd_encodeR (rs rt rd : Reg) (sh : Shamt) (f : BitVec 6) : fieldRd (encodeR rs rt rd sh f) = rd := by
  apply BitVec.eq_of_getLsbD_eq
  intro i hi
  simp only [fieldRd, encodeR, BitVec.getLsbD_extractLsb', BitVec.getLsbD_append]
  interval_cases i <;> simp

@[simp] theorem fieldShamt_encodeR (rs rt rd : Reg) (sh : Shamt) (f : BitVec 6) : fieldShamt (encodeR rs rt rd sh f) = sh := by
  apply BitVec.eq_of_getLsbD_eq
  intro i hi
  simp only [fieldShamt, encodeR, BitVec.getLsbD_extractLsb', BitVec.getLsbD_append]
  interval_cases i <;> simp

@[simp] theorem fieldFunct_encodeR (rs rt rd : Reg) (sh : Shamt) (f : BitVec 6) : fieldFunct (encodeR rs rt rd sh f) = f := by
  apply BitVec.eq_of_getLsbD_eq
  intro i hi
  simp only [fieldFunct, encodeR, BitVec.getLsbD_extractLsb', BitVec.getLsbD_append]
  interval_cases i <;> simp

@[simp] theorem fieldOpcode_encodeI (op : BitVec 6) (rs rt : Reg) (imm : Imm16) : fieldOpcode (encodeI op rs rt imm) = op := by
  apply BitVec.eq_of_getLsbD_eq
  intro i hi
  simp only [fieldOpcode, encodeI, BitVec.getLsbD_extractLsb', BitVec.getLsbD_append]
  interval_cases i <;> simp

@[simp] theorem fieldRs_encodeI (op : BitVec 6) (rs rt : Reg) (imm : Imm16) : fieldRs (encodeI op rs rt imm) = rs := by
  apply BitVec.eq_of_getLsbD_eq
  intro i hi
  simp only [fieldRs, encodeI, BitVec.getLsbD_extractLsb', BitVec.getLsbD_append]
  interval_cases i <;> simp

@[simp] theorem fieldRt_encodeI (op : BitVec 6) (rs rt : Reg) (imm : Imm16) : fieldRt (encodeI op rs rt imm) = rt := by
  apply BitVec.eq_of_getLsbD_eq
  intro i hi
  simp only [fieldRt, encodeI, BitVec.getLsbD_extractLsb', BitVec.getLsbD_append]
  interval_cases i <;> simp

@[simp] theorem fieldImm_encodeI (op : BitVec 6) (rs rt : Reg) (imm : Imm16) : fieldImm (encodeI op rs rt imm) = imm := by
  apply BitVec.eq_of_getLsbD_eq
  intro i hi
  simp only [fieldImm, encodeI, BitVec.getLsbD_extractLsb', BitVec.getLsbD_append]
  interval_cases i <;> simp

@[simp] theorem fieldOpcode_encodeJ (op : BitVec 6) (target : Target26) : fieldOpcode (encodeJ op target) = op := by
  apply BitVec.eq_of_getLsbD_eq
  intro i hi
  simp only [fieldOpcode, encodeJ, BitVec.getLsbD_extractLsb', BitVec.getLsbD_append]
  interval_cases i <;> simp

@[simp] theorem fieldTarget_encodeJ (op : BitVec 6) (target : Target26) : fieldTarget (encodeJ op target) = target := by
  apply BitVec.eq_of_getLsbD_eq
  intro i hi
  simp only [fieldTarget, encodeJ, BitVec.getLsbD_extractLsb', BitVec.getLsbD_append]
  interval_cases i <;> simp

/-! ## A word from its fields -/

theorem encodeR_fields (w : Word) (h : fieldOpcode w = 0#6) :
    encodeR (fieldRs w) (fieldRt w) (fieldRd w) (fieldShamt w) (fieldFunct w) = w := by
  have hop : ∀ k, w.getLsbD (26 + k) = false ∨ 6 ≤ k := fun k => by
    have hk := congrArg (fun v => v.getLsbD k) h
    simp only [fieldOpcode, BitVec.getLsbD_extractLsb'] at hk
    by_cases h6 : k < 6
    · left; simpa [h6] using hk
    · right; omega
  apply BitVec.eq_of_getLsbD_eq
  intro i hi
  by_cases h26 : i < 26
  · simp only [fieldRs, fieldRt, fieldRd, fieldShamt, fieldFunct, encodeR, BitVec.getLsbD_extractLsb',
      BitVec.getLsbD_append]
    interval_cases i <;> simp
  · have hz := (hop (i - 26)).resolve_right (by omega)
    rw [show 26 + (i - 26) = i by omega] at hz
    rw [hz]
    simp only [encodeR, BitVec.getLsbD_append]
    simp [show ¬ i < 6 by omega, show ¬ i - 6 < 5 by omega, show ¬ i - 6 - 5 < 5 by omega,
      show ¬ i - 6 - 5 - 5 < 5 by omega, show ¬ i - 6 - 5 - 5 - 5 < 5 by omega]

theorem encodeI_fields (w : Word) : encodeI (fieldOpcode w) (fieldRs w) (fieldRt w) (fieldImm w) = w := by
  apply BitVec.eq_of_getLsbD_eq
  intro i hi
  simp only [fieldOpcode, fieldRs, fieldRt, fieldImm, encodeI, BitVec.getLsbD_extractLsb', BitVec.getLsbD_append]
  interval_cases i <;> simp

theorem encodeJ_fields (w : Word) : encodeJ (fieldOpcode w) (fieldTarget w) = w := by
  apply BitVec.eq_of_getLsbD_eq
  intro i hi
  simp only [fieldOpcode, fieldTarget, encodeJ, BitVec.getLsbD_extractLsb', BitVec.getLsbD_append]
  interval_cases i <;> simp

/-! ## The maps -/

/-- No function code stands twice in the function map (30_encoding.md rule R58). -/
theorem rRows_no_overlap : (rRows.map RRow.funct).Nodup := by decide

/-- No opcode stands twice in the opcode map, nor is one of it the R format's (30_encoding.md rule R57). -/
theorem opcodes_no_overlap : (0#6 :: jRows.map JRow.opcode ++ iRows.map IRow.opcode).Nodup := by decide

end Sys2Proof
end

