-- ==== Sys2Proof/Laws/Memory.lean ====
section
/-! SUPPORT. The laws of memory: a read after a write, what a write leaves alone, and that every operation keeps the
canonical form (`Memory.wf`). -/

namespace Sys2Proof.Machine

/-! ## One byte -/

@[simp] theorem Memory.read_nil (a : Nat) : Memory.read [] a = unlistedByte := rfl

theorem Memory.read_cons (k : Nat) (b : Byte) (m : Memory) (a : Nat) :
    Memory.read ((k, b) :: m) a = if k = a then b else Memory.read m a := rfl

theorem Memory.read_erase (m : Memory) (a c : Nat) :
    Memory.read (Memory.erase m a) c = if c = a then unlistedByte else Memory.read m c := by
  induction m with
  | nil => simp [Memory.erase]
  | cons e m ih =>
    obtain ⟨k, b⟩ := e
    simp only [Memory.erase]
    split_ifs with h1 h2 h2 <;> simp only [Memory.read_cons, ih] <;> split_ifs <;> first | rfl | omega

theorem Memory.read_insert (m : Memory) (a : Nat) (b : Byte) (c : Nat) :
    Memory.read (Memory.insert m a b) c = if c = a then b else Memory.read m c := by
  induction m with
  | nil =>
    simp only [Memory.insert, Memory.read_cons, Memory.read_nil]
    split_ifs <;> first | rfl | omega
  | cons e m ih =>
    obtain ⟨k, d⟩ := e
    simp only [Memory.insert]
    split_ifs with h1 h2 h3 h3 h3 <;> simp only [Memory.read_cons, ih] <;> split_ifs <;> first | rfl | omega

/-- A read after a write gives the byte written at its address, and what was there elsewhere. -/
theorem Memory.read_write (m : Memory) (a : Nat) (b : Byte) (c : Nat) :
    Memory.read (Memory.write m a b) c = if c = a then b else Memory.read m c := by
  unfold Memory.write
  split_ifs with h1 h2 h2 <;> simp [Memory.read_erase, Memory.read_insert, h1, h2]

/-! ## The canonical form -/

/-- The canonical form, entry by entry: the first entry is not the unlisted byte, it lies below the rest, and the rest is
canonical. -/
theorem Memory.wf_cons (k : Nat) (b : Byte) (m : Memory) :
    Memory.wf ((k, b) :: m) = true ↔ b ≠ unlistedByte ∧ (∀ c ∈ m, k < c.1) ∧ Memory.wf m = true := by
  induction m generalizing k b with
  | nil => simp [Memory.wf]
  | cons e m ih =>
    obtain ⟨k', b'⟩ := e
    simp only [Memory.wf, Bool.and_eq_true, bne_iff_ne, decide_eq_true_eq, List.mem_cons, forall_eq_or_imp]
    constructor
    · rintro ⟨⟨h1, h2⟩, h3⟩
      exact ⟨h1, ⟨h2, fun c hc => lt_trans h2 (((ih k' b').1 h3).2.1 c hc)⟩, h3⟩
    · rintro ⟨h1, ⟨h2, -⟩, h3⟩
      exact ⟨⟨h1, h2⟩, h3⟩

theorem Memory.mem_erase {m : Memory} {a : Nat} {c : Host.Cell} (h : c ∈ Memory.erase m a) : c ∈ m := by
  induction m with
  | nil => simp [Memory.erase] at h
  | cons e m ih =>
    obtain ⟨k, b⟩ := e
    simp only [Memory.erase] at h
    split_ifs at h
    · exact List.mem_cons_of_mem _ (ih h)
    · rcases List.mem_cons.1 h with rfl | h
      · exact List.mem_cons_self
      · exact List.mem_cons_of_mem _ (ih h)

theorem Memory.mem_insert {m : Memory} {a : Nat} {b : Byte} {c : Host.Cell} (h : c ∈ Memory.insert m a b) :
    c = (a, b) ∨ c ∈ m := by
  induction m with
  | nil => simpa [Memory.insert] using h
  | cons e m ih =>
    obtain ⟨k, d⟩ := e
    simp only [Memory.insert] at h
    split_ifs at h <;> simp only [List.mem_cons] at h ⊢ <;> tauto

/-- An entry after a write is the one written or an old one. -/
theorem Memory.mem_write {m : Memory} {a : Nat} {b : Byte} {c : Host.Cell} (h : c ∈ Memory.write m a b) :
    c.1 = a ∨ c ∈ m := by
  unfold Memory.write at h
  split_ifs at h
  · exact .inr (Memory.mem_erase h)
  · rcases Memory.mem_insert h with rfl | h
    · exact .inl rfl
    · exact .inr h

theorem Memory.wf_erase {m : Memory} (h : Memory.wf m = true) (a : Nat) : Memory.wf (Memory.erase m a) = true := by
  induction m with
  | nil => rfl
  | cons e m ih =>
    obtain ⟨k, b⟩ := e
    obtain ⟨hb, hk, hm⟩ := (Memory.wf_cons k b m).1 h
    simp only [Memory.erase]
    split_ifs
    · exact ih hm
    · exact (Memory.wf_cons _ _ _).2 ⟨hb, fun c hc => hk c (Memory.mem_erase hc), ih hm⟩

theorem Memory.wf_insert {m : Memory} (h : Memory.wf m = true) (a : Nat) {b : Byte} (hb : b ≠ unlistedByte) :
    Memory.wf (Memory.insert m a b) = true := by
  induction m with
  | nil => simpa [Memory.insert, Memory.wf] using hb
  | cons e m ih =>
    obtain ⟨k, d⟩ := e
    obtain ⟨hd, hk, hm⟩ := (Memory.wf_cons k d m).1 h
    simp only [Memory.insert]
    split_ifs with h1 h2
    · refine (Memory.wf_cons _ _ _).2 ⟨hb, fun c hc => ?_, h⟩
      rcases List.mem_cons.1 hc with rfl | hc
      · exact h1
      · exact lt_trans h1 (hk c hc)
    · subst h2
      exact (Memory.wf_cons _ _ _).2 ⟨hb, hk, hm⟩
    · refine (Memory.wf_cons _ _ _).2 ⟨hd, fun c hc => ?_, ih hm⟩
      rcases Memory.mem_insert hc with rfl | hc
      · show k < a
        omega
      · exact hk c hc

/-- Writing a byte keeps the canonical form. -/
theorem Memory.wf_write {m : Memory} (h : Memory.wf m = true) (a : Nat) (b : Byte) :
    Memory.wf (Memory.write m a b) = true := by
  unfold Memory.write
  split_ifs with hb
  · exact Memory.wf_erase h a
  · exact Memory.wf_insert h a hb

/-! ## Several bytes -/

/-- A stored value's bytes, and what a store leaves alone. -/
theorem Memory.read_store (m : Memory) (a : Nat) (v : Word) (n c : Nat) :
    Memory.read (Memory.store m a v n) c =
      if a ≤ c ∧ c < a + n then (v >>> (8 * (c - a))).setWidth 8 else Memory.read m c := by
  induction n generalizing a v with
  | zero => simp [Memory.store]
  | succ n ih =>
    rw [Memory.store, Memory.read_write, ih]
    by_cases h : c = a
    · subst h; simp
    · rw [if_neg h]
      by_cases h2 : a + 1 ≤ c ∧ c < a + 1 + n
      · rw [if_pos h2, if_pos (by omega), ← BitVec.shiftRight_add, show 8 + 8 * (c - (a + 1)) = 8 * (c - a) by omega]
      · rw [if_neg h2, if_neg (by omega)]

/-- A store keeps the canonical form. -/
theorem Memory.wf_store {m : Memory} (h : Memory.wf m = true) (a : Nat) (v : Word) (n : Nat) :
    Memory.wf (Memory.store m a v n) = true := by
  induction n generalizing a v with
  | zero => exact h
  | succ n ih => exact Memory.wf_write (ih _ _) _ _

/-- An entry after a store lies in the stored bytes or is an old one. -/
theorem Memory.mem_store {m : Memory} {a : Nat} {v : Word} {n : Nat} {c : Host.Cell} (h : c ∈ Memory.store m a v n) :
    (a ≤ c.1 ∧ c.1 < a + n) ∨ c ∈ m := by
  induction n generalizing a v with
  | zero => exact .inr h
  | succ n ih =>
    rcases Memory.mem_write h with h | h
    · left; omega
    · rcases ih h with h | h
      · left; omega
      · exact .inr h

/-- Storing words keeps the canonical form. -/
theorem Memory.wf_storeWords {m : Memory} (h : Memory.wf m = true) (a : Nat) (ws : List Word) :
    Memory.wf (Memory.storeWords m a ws) = true := by
  induction ws generalizing m a with
  | nil => exact h
  | cons w ws ih => exact ih (Memory.wf_store h a w 4) (a + 4)

/-- Storing words leaves every address outside them alone. -/
theorem Memory.read_storeWords_outside (m : Memory) (a : Nat) (ws : List Word) (c : Nat)
    (h : c < a ∨ a + 4 * ws.length ≤ c) : Memory.read (Memory.storeWords m a ws) c = Memory.read m c := by
  induction ws generalizing m a with
  | nil => rfl
  | cons w ws ih =>
    simp only [List.length_cons] at h
    rw [Memory.storeWords, ih _ _ (by omega), Memory.read_store, if_neg (by omega)]

/-- An entry after storing words lies in them or is an old one. -/
theorem Memory.mem_storeWords {m : Memory} {a : Nat} {ws : List Word} {c : Host.Cell}
    (h : c ∈ Memory.storeWords m a ws) : (a ≤ c.1 ∧ c.1 < a + 4 * ws.length) ∨ c ∈ m := by
  induction ws generalizing m a with
  | nil => exact .inr h
  | cons w ws ih =>
    simp only [List.length_cons]
    rcases ih h with h | h
    · left; omega
    · rcases Memory.mem_store h with h | h
      · left; omega
      · exact .inr h

/-! ## Loading -/

/-- A load depends on the bytes it reads only. -/
theorem Memory.load_congr {m m' : Memory} {a n : Nat}
    (h : ∀ c, a ≤ c → c < a + n → Memory.read m c = Memory.read m' c) : Memory.load m a n = Memory.load m' a n := by
  induction n generalizing a with
  | zero => rfl
  | succ n ih =>
    simp only [Memory.load]
    rw [ih (fun c h1 h2 => h c (by omega) (by omega)), h a (by omega) (by omega)]

/-- Bit `i` of a loaded value is bit `i mod 8` of its byte `i / 8` (20_memory.md rule R36). -/
theorem Memory.getLsbD_load (m : Memory) (a n i : Nat) :
    (Memory.load m a n).getLsbD i =
      (decide (i < 8 * n) && decide (i < 32) && (Memory.read m (a + i / 8)).getLsbD (i % 8)) := by
  induction n generalizing a i with
  | zero => simp [Memory.load]
  | succ n ih =>
    simp only [Memory.load, BitVec.getLsbD_or, BitVec.getLsbD_shiftLeft, BitVec.getLsbD_setWidth, ih]
    by_cases h32 : i < 32
    · by_cases h8 : i < 8
      · have h1 : i / 8 = 0 := by omega
        have h2 : i % 8 = i := by omega
        have h3 : i < 8 * (n + 1) := by omega
        simp [h8, h32, h1, h2, h3]
      · have h1 : a + 1 + (i - 8) / 8 = a + i / 8 := by omega
        have h2 : (i - 8) % 8 = i % 8 := by omega
        have h3 : (i - 8 < 8 * n) = (i < 8 * (n + 1)) := by apply propext; omega
        have h4 : (Memory.read m a).getLsbD i = false := BitVec.getLsbD_of_ge _ _ (by omega)
        simp [h8, h32, h1, h2, h3, h4, show i - 8 < 32 by omega]
    · simp [h32]

/-- A byte loaded. -/
theorem Memory.load_one (m : Memory) (a : Nat) : Memory.load m a 1 = (Memory.read m a).setWidth 32 := by
  simp [Memory.load]

/-- A half-word loaded, little-endian (20_memory.md rule R34). -/
theorem Memory.load_two (m : Memory) (a : Nat) :
    Memory.load m a 2 = (Memory.read m (a + 1) ++ Memory.read m a).setWidth 32 := by
  apply BitVec.eq_of_getLsbD_eq
  intro i hi
  simp only [Memory.getLsbD_load, BitVec.getLsbD_setWidth, BitVec.getLsbD_append]
  by_cases h1 : i < 8
  · simp [h1, hi, show i / 8 = 0 by omega, show i % 8 = i by omega, show i < 8 * 2 by omega]
  · by_cases h2 : i < 16
    · simp [h1, h2, hi, show i / 8 = 1 by omega, show i % 8 = i - 8 by omega]
    · simp [h1, h2, hi, BitVec.getLsbD_of_ge (Memory.read m (a + 1)) (i - 8) (by omega)]

/-- A word loaded, little-endian (20_memory.md rule R34). -/
theorem Memory.load_four (m : Memory) (a : Nat) :
    Memory.load m a 4 =
      Memory.read m (a + 3) ++ Memory.read m (a + 2) ++ Memory.read m (a + 1) ++ Memory.read m a := by
  apply BitVec.eq_of_getLsbD_eq
  intro i hi
  simp only [Memory.getLsbD_load, BitVec.getLsbD_append]
  rcases (show i / 8 = 0 ∨ i / 8 = 1 ∨ i / 8 = 2 ∨ i / 8 = 3 by omega) with h | h | h | h
  · simp [h, hi, show i < 8 by omega, show i % 8 = i by omega]
  · simp [h, hi, show ¬ i < 8 by omega, show i - 8 < 8 by omega, show i % 8 = i - 8 by omega]
  · simp [h, hi, show ¬ i < 8 by omega, show ¬ i - 8 < 8 by omega, show i - 8 - 8 < 8 by omega,
      show i % 8 = i - 8 - 8 by omega]
  · simp [h, hi, show ¬ i < 8 by omega, show ¬ i - 8 < 8 by omega, show ¬ i - 8 - 8 < 8 by omega,
      show i % 8 = i - 8 - 8 - 8 by omega]

/-- A load of the bytes just stored gives the stored value's low bytes (20_memory.md rule R41). -/
theorem Memory.load_store (m : Memory) (a : Nat) (v : Word) (n i : Nat) :
    (Memory.load (Memory.store m a v n) a n).getLsbD i = (decide (i < 8 * n) && decide (i < 32) && v.getLsbD i) := by
  rw [Memory.getLsbD_load]
  by_cases h : i < 8 * n
  · rw [Memory.read_store, if_pos (by omega), show a + i / 8 - a = i / 8 by omega]
    simp [h, show i % 8 < 8 by omega, show 8 * (i / 8) + i % 8 = i by omega]
  · simp [h]

/-- A word loaded where it was stored is the word stored. -/
theorem Memory.load_store_word (m : Memory) (a : Nat) (v : Word) : Memory.load (Memory.store m a v 4) a 4 = v := by
  apply BitVec.eq_of_getLsbD_eq
  intro i hi
  rw [Memory.load_store]
  simp [hi]

/-- A word loaded outside the bytes stored is the word that was there. -/
theorem Memory.load_store_disjoint (m : Memory) (a : Nat) (v : Word) (n c k : Nat) (h : c + k ≤ a ∨ a + n ≤ c) :
    Memory.load (Memory.store m a v n) c k = Memory.load m c k :=
  Memory.load_congr fun d h1 h2 => by rw [Memory.read_store, if_neg (by omega)]

end Sys2Proof.Machine
end

