-- ==== Sys2Proof/Laws/State.lean ====
section
/-! SUPPORT. One lemma per field per update of the state, each true by rfl, so that no later proof unfolds a record
update. -/

namespace Sys2Proof.Machine

variable (s : State)

/-! ## setReg -/

@[simp] theorem State.setReg_cfg (r : Reg) (v : Word) : (s.setReg r v).cfg = s.cfg := rfl
@[simp] theorem State.setReg_pc (r : Reg) (v : Word) : (s.setReg r v).pc = s.pc := rfl
@[simp] theorem State.setReg_gpr (r : Reg) (v : Word) : (s.setReg r v).gpr = gprWrite s.gpr r v := rfl
@[simp] theorem State.setReg_hi (r : Reg) (v : Word) : (s.setReg r v).hi = s.hi := rfl
@[simp] theorem State.setReg_lo (r : Reg) (v : Word) : (s.setReg r v).lo = s.lo := rfl
@[simp] theorem State.setReg_redirect (r : Reg) (v : Word) : (s.setReg r v).redirect = s.redirect := rfl
@[simp] theorem State.setReg_mem (r : Reg) (v : Word) : (s.setReg r v).mem = s.mem := rfl
@[simp] theorem State.setReg_runFlag (r : Reg) (v : Word) : (s.setReg r v).runFlag = s.runFlag := rfl
@[simp] theorem State.setReg_instructionCount (r : Reg) (v : Word) : (s.setReg r v).instructionCount = s.instructionCount := rfl
@[simp] theorem State.setReg_programSizeWords (r : Reg) (v : Word) : (s.setReg r v).programSizeWords = s.programSizeWords := rfl
@[simp] theorem State.setReg_diag (r : Reg) (v : Word) : (s.setReg r v).diag = s.diag := rfl
@[simp] theorem State.setReg_env (r : Reg) (v : Word) : (s.setReg r v).env = s.env := rfl
@[simp] theorem State.setReg_envAnswers (r : Reg) (v : Word) : (s.setReg r v).envAnswers = s.envAnswers := rfl
@[simp] theorem State.setReg_envCalls (r : Reg) (v : Word) : (s.setReg r v).envCalls = s.envCalls := rfl

/-! ## setHi -/

@[simp] theorem State.setHi_cfg (v : Word) : (s.setHi v).cfg = s.cfg := rfl
@[simp] theorem State.setHi_pc (v : Word) : (s.setHi v).pc = s.pc := rfl
@[simp] theorem State.setHi_gpr (v : Word) : (s.setHi v).gpr = s.gpr := rfl
@[simp] theorem State.setHi_hi (v : Word) : (s.setHi v).hi = v := rfl
@[simp] theorem State.setHi_lo (v : Word) : (s.setHi v).lo = s.lo := rfl
@[simp] theorem State.setHi_redirect (v : Word) : (s.setHi v).redirect = s.redirect := rfl
@[simp] theorem State.setHi_mem (v : Word) : (s.setHi v).mem = s.mem := rfl
@[simp] theorem State.setHi_runFlag (v : Word) : (s.setHi v).runFlag = s.runFlag := rfl
@[simp] theorem State.setHi_instructionCount (v : Word) : (s.setHi v).instructionCount = s.instructionCount := rfl
@[simp] theorem State.setHi_programSizeWords (v : Word) : (s.setHi v).programSizeWords = s.programSizeWords := rfl
@[simp] theorem State.setHi_diag (v : Word) : (s.setHi v).diag = s.diag := rfl
@[simp] theorem State.setHi_env (v : Word) : (s.setHi v).env = s.env := rfl
@[simp] theorem State.setHi_envAnswers (v : Word) : (s.setHi v).envAnswers = s.envAnswers := rfl
@[simp] theorem State.setHi_envCalls (v : Word) : (s.setHi v).envCalls = s.envCalls := rfl

/-! ## setLo -/

@[simp] theorem State.setLo_cfg (v : Word) : (s.setLo v).cfg = s.cfg := rfl
@[simp] theorem State.setLo_pc (v : Word) : (s.setLo v).pc = s.pc := rfl
@[simp] theorem State.setLo_gpr (v : Word) : (s.setLo v).gpr = s.gpr := rfl
@[simp] theorem State.setLo_hi (v : Word) : (s.setLo v).hi = s.hi := rfl
@[simp] theorem State.setLo_lo (v : Word) : (s.setLo v).lo = v := rfl
@[simp] theorem State.setLo_redirect (v : Word) : (s.setLo v).redirect = s.redirect := rfl
@[simp] theorem State.setLo_mem (v : Word) : (s.setLo v).mem = s.mem := rfl
@[simp] theorem State.setLo_runFlag (v : Word) : (s.setLo v).runFlag = s.runFlag := rfl
@[simp] theorem State.setLo_instructionCount (v : Word) : (s.setLo v).instructionCount = s.instructionCount := rfl
@[simp] theorem State.setLo_programSizeWords (v : Word) : (s.setLo v).programSizeWords = s.programSizeWords := rfl
@[simp] theorem State.setLo_diag (v : Word) : (s.setLo v).diag = s.diag := rfl
@[simp] theorem State.setLo_env (v : Word) : (s.setLo v).env = s.env := rfl
@[simp] theorem State.setLo_envAnswers (v : Word) : (s.setLo v).envAnswers = s.envAnswers := rfl
@[simp] theorem State.setLo_envCalls (v : Word) : (s.setLo v).envCalls = s.envCalls := rfl

/-! ## writeProduct -/

@[simp] theorem State.writeProduct_cfg (p : BitVec 64) : (s.writeProduct p).cfg = s.cfg := rfl
@[simp] theorem State.writeProduct_pc (p : BitVec 64) : (s.writeProduct p).pc = s.pc := rfl
@[simp] theorem State.writeProduct_gpr (p : BitVec 64) : (s.writeProduct p).gpr = s.gpr := rfl
@[simp] theorem State.writeProduct_hi (p : BitVec 64) : (s.writeProduct p).hi = p.extractLsb' 32 32 := rfl
@[simp] theorem State.writeProduct_lo (p : BitVec 64) : (s.writeProduct p).lo = p.extractLsb' 0 32 := rfl
@[simp] theorem State.writeProduct_redirect (p : BitVec 64) : (s.writeProduct p).redirect = s.redirect := rfl
@[simp] theorem State.writeProduct_mem (p : BitVec 64) : (s.writeProduct p).mem = s.mem := rfl
@[simp] theorem State.writeProduct_runFlag (p : BitVec 64) : (s.writeProduct p).runFlag = s.runFlag := rfl
@[simp] theorem State.writeProduct_instructionCount (p : BitVec 64) : (s.writeProduct p).instructionCount = s.instructionCount := rfl
@[simp] theorem State.writeProduct_programSizeWords (p : BitVec 64) : (s.writeProduct p).programSizeWords = s.programSizeWords := rfl
@[simp] theorem State.writeProduct_diag (p : BitVec 64) : (s.writeProduct p).diag = s.diag := rfl
@[simp] theorem State.writeProduct_env (p : BitVec 64) : (s.writeProduct p).env = s.env := rfl
@[simp] theorem State.writeProduct_envAnswers (p : BitVec 64) : (s.writeProduct p).envAnswers = s.envAnswers := rfl
@[simp] theorem State.writeProduct_envCalls (p : BitVec 64) : (s.writeProduct p).envCalls = s.envCalls := rfl

/-! ## writeQuotient -/

@[simp] theorem State.writeQuotient_cfg (q r : Word) : (s.writeQuotient q r).cfg = s.cfg := rfl
@[simp] theorem State.writeQuotient_pc (q r : Word) : (s.writeQuotient q r).pc = s.pc := rfl
@[simp] theorem State.writeQuotient_gpr (q r : Word) : (s.writeQuotient q r).gpr = s.gpr := rfl
@[simp] theorem State.writeQuotient_hi (q r : Word) : (s.writeQuotient q r).hi = r := rfl
@[simp] theorem State.writeQuotient_lo (q r : Word) : (s.writeQuotient q r).lo = q := rfl
@[simp] theorem State.writeQuotient_redirect (q r : Word) : (s.writeQuotient q r).redirect = s.redirect := rfl
@[simp] theorem State.writeQuotient_mem (q r : Word) : (s.writeQuotient q r).mem = s.mem := rfl
@[simp] theorem State.writeQuotient_runFlag (q r : Word) : (s.writeQuotient q r).runFlag = s.runFlag := rfl
@[simp] theorem State.writeQuotient_instructionCount (q r : Word) : (s.writeQuotient q r).instructionCount = s.instructionCount := rfl
@[simp] theorem State.writeQuotient_programSizeWords (q r : Word) : (s.writeQuotient q r).programSizeWords = s.programSizeWords := rfl
@[simp] theorem State.writeQuotient_diag (q r : Word) : (s.writeQuotient q r).diag = s.diag := rfl
@[simp] theorem State.writeQuotient_env (q r : Word) : (s.writeQuotient q r).env = s.env := rfl
@[simp] theorem State.writeQuotient_envAnswers (q r : Word) : (s.writeQuotient q r).envAnswers = s.envAnswers := rfl
@[simp] theorem State.writeQuotient_envCalls (q r : Word) : (s.writeQuotient q r).envCalls = s.envCalls := rfl

/-! ## link -/

@[simp] theorem State.link_cfg : (s.link).cfg = s.cfg := rfl
@[simp] theorem State.link_pc : (s.link).pc = s.pc := rfl
@[simp] theorem State.link_gpr : (s.link).gpr = gprWrite s.gpr linkReg (linkAddress s.pc) := rfl
@[simp] theorem State.link_hi : (s.link).hi = s.hi := rfl
@[simp] theorem State.link_lo : (s.link).lo = s.lo := rfl
@[simp] theorem State.link_redirect : (s.link).redirect = s.redirect := rfl
@[simp] theorem State.link_mem : (s.link).mem = s.mem := rfl
@[simp] theorem State.link_runFlag : (s.link).runFlag = s.runFlag := rfl
@[simp] theorem State.link_instructionCount : (s.link).instructionCount = s.instructionCount := rfl
@[simp] theorem State.link_programSizeWords : (s.link).programSizeWords = s.programSizeWords := rfl
@[simp] theorem State.link_diag : (s.link).diag = s.diag := rfl
@[simp] theorem State.link_env : (s.link).env = s.env := rfl
@[simp] theorem State.link_envAnswers : (s.link).envAnswers = s.envAnswers := rfl
@[simp] theorem State.link_envCalls : (s.link).envCalls = s.envCalls := rfl

/-! ## commit -/

@[simp] theorem State.commit_cfg (out : Option Word) : (s.commit out).cfg = s.cfg := rfl
@[simp] theorem State.commit_pc (out : Option Word) : (s.commit out).pc = s.redirect.getD (s.pc + 4#32) := rfl
@[simp] theorem State.commit_gpr (out : Option Word) : (s.commit out).gpr = s.gpr.set 0 0#32 := rfl
@[simp] theorem State.commit_hi (out : Option Word) : (s.commit out).hi = s.hi := rfl
@[simp] theorem State.commit_lo (out : Option Word) : (s.commit out).lo = s.lo := rfl
@[simp] theorem State.commit_redirect (out : Option Word) : (s.commit out).redirect = out := rfl
@[simp] theorem State.commit_mem (out : Option Word) : (s.commit out).mem = s.mem := rfl
@[simp] theorem State.commit_runFlag (out : Option Word) : (s.commit out).runFlag = s.runFlag := rfl
@[simp] theorem State.commit_instructionCount (out : Option Word) : (s.commit out).instructionCount = s.instructionCount + 1#32 := rfl
@[simp] theorem State.commit_programSizeWords (out : Option Word) : (s.commit out).programSizeWords = s.programSizeWords := rfl
@[simp] theorem State.commit_diag (out : Option Word) : (s.commit out).diag = s.diag := rfl
@[simp] theorem State.commit_env (out : Option Word) : (s.commit out).env = s.env := rfl
@[simp] theorem State.commit_envAnswers (out : Option Word) : (s.commit out).envAnswers = s.envAnswers := rfl
@[simp] theorem State.commit_envCalls (out : Option Word) : (s.commit out).envCalls = s.envCalls := rfl

/-! ## stop -/

@[simp] theorem State.stop_cfg : (s.stop).cfg = s.cfg := rfl
@[simp] theorem State.stop_pc : (s.stop).pc = s.pc := rfl
@[simp] theorem State.stop_gpr : (s.stop).gpr = s.gpr := rfl
@[simp] theorem State.stop_hi : (s.stop).hi = s.hi := rfl
@[simp] theorem State.stop_lo : (s.stop).lo = s.lo := rfl
@[simp] theorem State.stop_redirect : (s.stop).redirect = s.redirect := rfl
@[simp] theorem State.stop_mem : (s.stop).mem = s.mem := rfl
@[simp] theorem State.stop_runFlag : (s.stop).runFlag = false := rfl
@[simp] theorem State.stop_instructionCount : (s.stop).instructionCount = s.instructionCount := rfl
@[simp] theorem State.stop_programSizeWords : (s.stop).programSizeWords = s.programSizeWords := rfl
@[simp] theorem State.stop_diag : (s.stop).diag = s.diag := rfl
@[simp] theorem State.stop_env : (s.stop).env = s.env := rfl
@[simp] theorem State.stop_envAnswers : (s.stop).envAnswers = s.envAnswers := rfl
@[simp] theorem State.stop_envCalls : (s.stop).envCalls = s.envCalls := rfl

/-! ## takeFault -/

@[simp] theorem State.takeFault_cfg (k : FaultKind) (c : Option MemCause) (w a v : Option Word) : (s.takeFault k c w a v).cfg = s.cfg := rfl
@[simp] theorem State.takeFault_pc (k : FaultKind) (c : Option MemCause) (w a v : Option Word) : (s.takeFault k c w a v).pc = s.pc := rfl
@[simp] theorem State.takeFault_gpr (k : FaultKind) (c : Option MemCause) (w a v : Option Word) : (s.takeFault k c w a v).gpr = s.gpr := rfl
@[simp] theorem State.takeFault_hi (k : FaultKind) (c : Option MemCause) (w a v : Option Word) : (s.takeFault k c w a v).hi = s.hi := rfl
@[simp] theorem State.takeFault_lo (k : FaultKind) (c : Option MemCause) (w a v : Option Word) : (s.takeFault k c w a v).lo = s.lo := rfl
@[simp] theorem State.takeFault_redirect (k : FaultKind) (c : Option MemCause) (w a v : Option Word) : (s.takeFault k c w a v).redirect = s.redirect := rfl
@[simp] theorem State.takeFault_mem (k : FaultKind) (c : Option MemCause) (w a v : Option Word) : (s.takeFault k c w a v).mem = s.mem := rfl
@[simp] theorem State.takeFault_runFlag (k : FaultKind) (c : Option MemCause) (w a v : Option Word) : (s.takeFault k c w a v).runFlag = false := rfl
@[simp] theorem State.takeFault_instructionCount (k : FaultKind) (c : Option MemCause) (w a v : Option Word) : (s.takeFault k c w a v).instructionCount = s.instructionCount := rfl
@[simp] theorem State.takeFault_programSizeWords (k : FaultKind) (c : Option MemCause) (w a v : Option Word) : (s.takeFault k c w a v).programSizeWords = s.programSizeWords := rfl
@[simp] theorem State.takeFault_diag (k : FaultKind) (c : Option MemCause) (w a v : Option Word) : (s.takeFault k c w a v).diag = some ⟨k, c, s.pc, w, a, v, s.instructionCount⟩ := rfl
@[simp] theorem State.takeFault_env (k : FaultKind) (c : Option MemCause) (w a v : Option Word) : (s.takeFault k c w a v).env = s.env := rfl
@[simp] theorem State.takeFault_envAnswers (k : FaultKind) (c : Option MemCause) (w a v : Option Word) : (s.takeFault k c w a v).envAnswers = s.envAnswers := rfl
@[simp] theorem State.takeFault_envCalls (k : FaultKind) (c : Option MemCause) (w a v : Option Word) : (s.takeFault k c w a v).envCalls = s.envCalls := rfl

/-! ## placeWord -/

@[simp] theorem State.placeWord_cfg (w : Word) : (s.placeWord w).cfg = s.cfg := rfl
@[simp] theorem State.placeWord_pc (w : Word) : (s.placeWord w).pc = s.pc := rfl
@[simp] theorem State.placeWord_gpr (w : Word) : (s.placeWord w).gpr = s.gpr := rfl
@[simp] theorem State.placeWord_hi (w : Word) : (s.placeWord w).hi = s.hi := rfl
@[simp] theorem State.placeWord_lo (w : Word) : (s.placeWord w).lo = s.lo := rfl
@[simp] theorem State.placeWord_redirect (w : Word) : (s.placeWord w).redirect = s.redirect := rfl
@[simp] theorem State.placeWord_mem (w : Word) : (s.placeWord w).mem = Memory.store s.mem s.pc.toNat w 4 := rfl
@[simp] theorem State.placeWord_runFlag (w : Word) : (s.placeWord w).runFlag = s.runFlag := rfl
@[simp] theorem State.placeWord_instructionCount (w : Word) : (s.placeWord w).instructionCount = s.instructionCount := rfl
@[simp] theorem State.placeWord_programSizeWords (w : Word) : (s.placeWord w).programSizeWords = s.programSizeWords := rfl
@[simp] theorem State.placeWord_diag (w : Word) : (s.placeWord w).diag = s.diag := rfl
@[simp] theorem State.placeWord_env (w : Word) : (s.placeWord w).env = s.env := rfl
@[simp] theorem State.placeWord_envAnswers (w : Word) : (s.placeWord w).envAnswers = s.envAnswers := rfl
@[simp] theorem State.placeWord_envCalls (w : Word) : (s.placeWord w).envCalls = s.envCalls := rfl

/-! ## callEnv -/

@[simp] theorem State.callEnv_cfg (sel : Word) : (s.callEnv sel).cfg = s.cfg := rfl
@[simp] theorem State.callEnv_pc (sel : Word) : (s.callEnv sel).pc = s.pc := rfl
@[simp] theorem State.callEnv_hi (sel : Word) : (s.callEnv sel).hi = s.hi := rfl
@[simp] theorem State.callEnv_lo (sel : Word) : (s.callEnv sel).lo = s.lo := rfl
@[simp] theorem State.callEnv_redirect (sel : Word) : (s.callEnv sel).redirect = s.redirect := rfl
@[simp] theorem State.callEnv_mem (sel : Word) : (s.callEnv sel).mem = s.mem := rfl
@[simp] theorem State.callEnv_runFlag (sel : Word) : (s.callEnv sel).runFlag = s.runFlag := rfl
@[simp] theorem State.callEnv_instructionCount (sel : Word) : (s.callEnv sel).instructionCount = s.instructionCount := rfl
@[simp] theorem State.callEnv_programSizeWords (sel : Word) : (s.callEnv sel).programSizeWords = s.programSizeWords := rfl
@[simp] theorem State.callEnv_diag (sel : Word) : (s.callEnv sel).diag = s.diag := rfl
@[simp] theorem State.callEnv_env (sel : Word) : (s.callEnv sel).env = s.envAfterCall := rfl
@[simp] theorem State.callEnv_envAnswers (sel : Word) : (s.callEnv sel).envAnswers = s.envAnswers.tail := rfl
@[simp] theorem State.callEnv_envCalls (sel : Word) : (s.callEnv sel).envCalls = s.envCalls ++ [⟨sel, s.gprSnapshot⟩] := rfl

/-! ## hostSetGpr -/

@[simp] theorem State.hostSetGpr_cfg (r : Reg) (v : Word) : (s.hostSetGpr r v).cfg = s.cfg := rfl
@[simp] theorem State.hostSetGpr_pc (r : Reg) (v : Word) : (s.hostSetGpr r v).pc = s.pc := rfl
@[simp] theorem State.hostSetGpr_gpr (r : Reg) (v : Word) : (s.hostSetGpr r v).gpr = gprWrite s.gpr r v := rfl
@[simp] theorem State.hostSetGpr_hi (r : Reg) (v : Word) : (s.hostSetGpr r v).hi = s.hi := rfl
@[simp] theorem State.hostSetGpr_lo (r : Reg) (v : Word) : (s.hostSetGpr r v).lo = s.lo := rfl
@[simp] theorem State.hostSetGpr_redirect (r : Reg) (v : Word) : (s.hostSetGpr r v).redirect = s.redirect := rfl
@[simp] theorem State.hostSetGpr_mem (r : Reg) (v : Word) : (s.hostSetGpr r v).mem = s.mem := rfl
@[simp] theorem State.hostSetGpr_runFlag (r : Reg) (v : Word) : (s.hostSetGpr r v).runFlag = s.runFlag := rfl
@[simp] theorem State.hostSetGpr_instructionCount (r : Reg) (v : Word) : (s.hostSetGpr r v).instructionCount = s.instructionCount := rfl
@[simp] theorem State.hostSetGpr_programSizeWords (r : Reg) (v : Word) : (s.hostSetGpr r v).programSizeWords = s.programSizeWords := rfl
@[simp] theorem State.hostSetGpr_diag (r : Reg) (v : Word) : (s.hostSetGpr r v).diag = s.diag := rfl
@[simp] theorem State.hostSetGpr_env (r : Reg) (v : Word) : (s.hostSetGpr r v).env = s.env := rfl
@[simp] theorem State.hostSetGpr_envAnswers (r : Reg) (v : Word) : (s.hostSetGpr r v).envAnswers = s.envAnswers := rfl
@[simp] theorem State.hostSetGpr_envCalls (r : Reg) (v : Word) : (s.hostSetGpr r v).envCalls = s.envCalls := rfl

/-! ## loadImage -/

@[simp] theorem State.loadImage_cfg (ws : List Word) : (s.loadImage ws).cfg = s.cfg := rfl
@[simp] theorem State.loadImage_pc (ws : List Word) : (s.loadImage ws).pc = s.pc := rfl
@[simp] theorem State.loadImage_gpr (ws : List Word) : (s.loadImage ws).gpr = s.gpr := rfl
@[simp] theorem State.loadImage_hi (ws : List Word) : (s.loadImage ws).hi = s.hi := rfl
@[simp] theorem State.loadImage_lo (ws : List Word) : (s.loadImage ws).lo = s.lo := rfl
@[simp] theorem State.loadImage_redirect (ws : List Word) : (s.loadImage ws).redirect = s.redirect := rfl
@[simp] theorem State.loadImage_mem (ws : List Word) : (s.loadImage ws).mem = Memory.storeWords s.mem s.cfg.text.base.toNat ws := rfl
@[simp] theorem State.loadImage_runFlag (ws : List Word) : (s.loadImage ws).runFlag = s.runFlag := rfl
@[simp] theorem State.loadImage_instructionCount (ws : List Word) : (s.loadImage ws).instructionCount = s.instructionCount := rfl
@[simp] theorem State.loadImage_programSizeWords (ws : List Word) : (s.loadImage ws).programSizeWords = BitVec.ofNat 32 ws.length := rfl
@[simp] theorem State.loadImage_diag (ws : List Word) : (s.loadImage ws).diag = s.diag := rfl
@[simp] theorem State.loadImage_env (ws : List Word) : (s.loadImage ws).env = s.env := rfl
@[simp] theorem State.loadImage_envAnswers (ws : List Word) : (s.loadImage ws).envAnswers = s.envAnswers := rfl
@[simp] theorem State.loadImage_envCalls (ws : List Word) : (s.loadImage ws).envCalls = s.envCalls := rfl

/-! ## cleared -/

@[simp] theorem State.cleared_cfg : (s.cleared).cfg = s.cfg := rfl
@[simp] theorem State.cleared_pc : (s.cleared).pc = s.cfg.text.base := rfl
@[simp] theorem State.cleared_gpr : (s.cleared).gpr = Vector.replicate 32 0#32 := rfl
@[simp] theorem State.cleared_hi : (s.cleared).hi = 0#32 := rfl
@[simp] theorem State.cleared_lo : (s.cleared).lo = 0#32 := rfl
@[simp] theorem State.cleared_redirect : (s.cleared).redirect = none := rfl
@[simp] theorem State.cleared_mem : (s.cleared).mem = [] := rfl
@[simp] theorem State.cleared_runFlag : (s.cleared).runFlag = true := rfl
@[simp] theorem State.cleared_instructionCount : (s.cleared).instructionCount = 0#32 := rfl
@[simp] theorem State.cleared_programSizeWords : (s.cleared).programSizeWords = 0#32 := rfl
@[simp] theorem State.cleared_diag : (s.cleared).diag = none := rfl
@[simp] theorem State.cleared_env : (s.cleared).env = s.env := rfl
@[simp] theorem State.cleared_envAnswers : (s.cleared).envAnswers = s.envAnswers := rfl
@[simp] theorem State.cleared_envCalls : (s.cleared).envCalls = s.envCalls := rfl

/-! ## What a meaning answers at its end -/

theorem State.complete_eq : s.complete = .next (s.commit none) := rfl
theorem State.transfer_eq (out : Option Word) : s.transfer out = .next (s.commit out) := rfl
theorem State.result_eq (dest : Reg) (v : Word) : s.result dest v = .next ((s.setReg dest v).commit none) := rfl

end Sys2Proof.Machine
end

