-- ==== Sys2Proof/Laws/Ops.lean ====
section
/-! SUPPORT. What each shared operation can do, said once: registers, the commit, faults, accesses, loads and stores. -/

namespace Sys2Proof.Machine

/-! ## Registers -/

@[simp] theorem gprRead_zero (g : Vector Word 32) : gprRead g 0#5 = 0#32 := rfl

theorem gprRead_of_ne {g : Vector Word 32} {r : Reg} (h : r ≠ 0#5) : gprRead g r = g[r.toNat] := by
  simp [gprRead, h]

/-- Element 0 is never read, so setting it changes no read. -/
@[simp] theorem gprRead_set_zero (g : Vector Word 32) (v : Word) (r : Reg) :
    gprRead (g.set 0 v) r = gprRead g r := by
  unfold gprRead
  split_ifs with h
  · rfl
  · have hr : ¬ (0 = r.toNat) := fun h0 => h (BitVec.eq_of_toNat_eq (by simpa using h0.symm))
    rw [Vector.getElem_set, if_neg hr]

/-- A register read after a register write (10_state.md rule R12). -/
theorem gprRead_gprWrite (g : Vector Word 32) (d : Reg) (v : Word) (r : Reg) :
    gprRead (gprWrite g d v) r = if r = d ∧ d ≠ 0#5 then v else gprRead g r := by
  unfold gprWrite
  by_cases hd : d = 0#5
  · simp [hd]
  · by_cases hr : r = 0#5
    · subst hr
      simp [hd, Ne.symm hd]
    · rw [if_neg hd, gprRead_of_ne hr, gprRead_of_ne hr, Vector.getElem_set]
      by_cases h : r = d
      · simp [h, hd]
      · have : d.toNat ≠ r.toNat := fun h0 => h (BitVec.eq_of_toNat_eq h0.symm)
        simp [h, this]

/-- Register 0 reads as zero (10_state.md rule R12). -/
@[simp] theorem State.reg_zero (s : State) : s.reg 0#5 = 0#32 := rfl

theorem State.reg_setReg (s : State) (d : Reg) (v : Word) (r : Reg) :
    (s.setReg d v).reg r = if r = d ∧ d ≠ 0#5 then v else s.reg r := gprRead_gprWrite s.gpr d v r

@[simp] theorem State.reg_commit (s : State) (out : Option Word) (r : Reg) : (s.commit out).reg r = s.reg r :=
  gprRead_set_zero s.gpr 0#32 r

@[simp] theorem State.reg_stop (s : State) (r : Reg) : s.stop.reg r = s.reg r := rfl
@[simp] theorem State.reg_setHi (s : State) (v : Word) (r : Reg) : (s.setHi v).reg r = s.reg r := rfl
@[simp] theorem State.reg_setLo (s : State) (v : Word) (r : Reg) : (s.setLo v).reg r = s.reg r := rfl
@[simp] theorem State.reg_writeProduct (s : State) (p : BitVec 64) (r : Reg) : (s.writeProduct p).reg r = s.reg r := rfl
@[simp] theorem State.reg_writeQuotient (s : State) (q m : Word) (r : Reg) :
    (s.writeQuotient q m).reg r = s.reg r := rfl

/-- The registers after a call of the environment (45_system.md rule R172). -/
theorem State.reg_callEnv (s : State) (sel : Word) (r : Reg) :
    (s.callEnv sel).reg r = if r = 2#5 then (s.envAnswer sel).getD (s.reg 2#5) else s.reg r := by
  unfold State.callEnv State.reg
  cases s.envAnswer sel with
  | none => by_cases h : r = 2#5 <;> simp [h]
  | some v => simp [gprRead_gprWrite]

/-! ## The system-call port -/

/-- A written-out answer comes first, and leaves the environment as it is. -/
theorem State.envAnswer_cons {s : State} {a : Option Word} {rest : List (Option Word)}
    (h : s.envAnswers = a :: rest) (sel : Word) : s.envAnswer sel = a ∧ s.envAfterCall = s.env := by
  simp [State.envAnswer, State.envAfterCall, h]

/-- With no answer written out, the environment answers, and goes on to its next call. -/
theorem State.envAnswer_nil {s : State} (h : s.envAnswers = []) (sel : Word) :
    s.envAnswer sel = envSourceAnswer s.env sel s.gprSnapshot ∧ s.envAfterCall = envSourceNext s.env := by
  simp [State.envAnswer, State.envAfterCall, h]

/-- A call changes no environment but a free input (00_scope.md rule R4). -/
theorem State.envAfterCall_of_fixed {s : State} (h : ∀ n, s.env ≠ .draws n) : s.envAfterCall = s.env := by
  unfold State.envAfterCall
  cases s.envAnswers with
  | cons a rest => rfl
  | nil =>
    cases he : s.env with
    | constant a => rfl
    | function n => rfl
    | draws n => exact absurd he (h n)

/-! ## The commit -/

/-- A commit of the instruction's `next` buffer `n`, which kept what the commit reads and what it does not write. -/
theorem State.commits_of (s n : State) (out : Option Word) (hpc : n.pc = s.pc) (hr : n.redirect = s.redirect)
    (hi : n.instructionCount = s.instructionCount) (hd : n.diag = s.diag)
    (hp : n.programSizeWords = s.programSizeWords) (hc : n.cfg = s.cfg) : Commits s (n.commit out) out where
  pc := by
    rw [State.commit_pc, hpc, hr, State.nextPc]
    cases s.redirect <;> rfl
  redirect := rfl
  count := by rw [State.commit_instructionCount, hi]
  zero := by simp
  diag := hd
  program := hp
  cfg := hc

/-- An instruction that writes one register and records the redirect `out`. -/
theorem State.writesReg_setReg (s : State) (d : Reg) (v : Word) (out : Option Word) :
    WritesReg s ((s.setReg d v).commit out) d v out where
  commits := s.commits_of _ out rfl rfl rfl rfl rfl rfl
  quiet := ⟨rfl, rfl, rfl, rfl⟩
  regs := fun r => by rw [State.reg_commit, State.reg_setReg]
  hilo := ⟨rfl, rfl⟩
  memory := fun _ => rfl

/-- An instruction that ends with one register's result (41_alu.md rule R90). -/
theorem State.result_writesReg (s : State) (d : Reg) (v : Word) :
    ∃ t, s.result d v = .next t ∧ WritesReg s t d v none := ⟨_, rfl, s.writesReg_setReg d v none⟩

/-- An instruction that writes HI and LO. -/
theorem State.writesHiLo_quotient (s : State) (q r : Word) : WritesHiLo s ((s.writeQuotient q r).commit none) r q where
  commits := s.commits_of _ none rfl rfl rfl rfl rfl rfl
  quiet := ⟨rfl, rfl, rfl, rfl⟩
  regs := fun r => by simp
  hi := rfl
  lo := rfl
  memory := fun _ => rfl

theorem State.writesHiLo_product (s : State) (p : BitVec 64) :
    WritesHiLo s ((s.writeProduct p).commit none) (p.extractLsb' 32 32) (p.extractLsb' 0 32) where
  commits := s.commits_of _ none rfl rfl rfl rfl rfl rfl
  quiet := ⟨rfl, rfl, rfl, rfl⟩
  regs := fun r => by simp
  hi := rfl
  lo := rfl
  memory := fun _ => rfl

/-- An instruction that writes nothing but its redirect. -/
theorem State.writesNothing_commit (s : State) (out : Option Word) : WritesNothing s (s.commit out) out where
  commits := s.commits_of _ out rfl rfl rfl rfl rfl rfl
  quiet := ⟨rfl, rfl, rfl, rfl⟩
  regs := fun r => by simp
  hilo := ⟨rfl, rfl⟩
  memory := fun _ => rfl

/-! ## Faults -/

/-- Taking a fault changes the run flag and the record only (60_exceptions.md rules R186 and R187). -/
theorem State.takesFault (s : State) (k : FaultKind) (c : Option MemCause) (w a v : Option Word) :
    TakesFault s (s.takeFault k c w a v) k c w a v :=
  ⟨rfl, rfl, rfl, rfl, rfl, rfl, rfl, rfl, rfl, rfl, rfl, rfl, rfl, rfl⟩

/-! ## Accesses -/

/-- An access has no fault exactly when it is aligned and lies in one region (20_memory.md rules R36 to R38). -/
theorem accessFault_eq_none (c : Config) (addr : Word) (w : Width) :
    accessFault c addr w = none ↔ addr.toNat % widthBytes w = 0 ∧ contained c addr.toNat (widthBytes w) = true := by
  unfold accessFault
  split_ifs with h1 h2 h3 <;> simp_all

/-- Every byte of a contained access is mapped (20_memory.md rule R33). -/
theorem mapped_of_contained {c : Config} {a n k : Nat} (h : contained c a n = true) (hk : k < n) :
    mapped c (a + k) = true := by
  unfold contained at h
  unfold mapped
  rw [List.any_eq_true] at h ⊢
  obtain ⟨r, hr, h⟩ := h
  refine ⟨r, hr, ?_⟩
  simp only [regionHolds, Bool.and_eq_true, decide_eq_true_eq] at h ⊢
  omega

theorem State.memRead_ok {s : State} {addr : Word} {w : Width} (h : accessFault s.cfg addr w = none) :
    s.memRead addr w = .ok (Memory.load s.mem addr.toNat (widthBytes w)) := by
  simp [State.memRead, h]

theorem State.memRead_error {s : State} {addr : Word} {w : Width} {c : MemCause}
    (h : accessFault s.cfg addr w = some c) : s.memRead addr w = .error c := by
  simp [State.memRead, h]

/-- What `MemRead` can answer (20_memory.md rule R36). -/
theorem State.memRead_cases (s : State) (addr : Word) (w : Width) :
    (∃ c, accessFault s.cfg addr w = some c ∧ s.memRead addr w = .error c) ∨
    (accessFault s.cfg addr w = none ∧
      s.memRead addr w = .ok (Memory.load s.mem addr.toNat (widthBytes w))) := by
  cases h : accessFault s.cfg addr w with
  | some c => exact .inl ⟨c, rfl, State.memRead_error h⟩
  | none => exact .inr ⟨rfl, State.memRead_ok h⟩

theorem State.readWordHost_ok {s : State} {addr : Word} (h : accessFault s.cfg addr .word = none) :
    s.readWordHost addr = .ok (Memory.load s.mem addr.toNat 4) := by
  simp [State.readWordHost, State.memRead_ok h, widthBytes]

theorem State.readWordHost_error {s : State} {addr : Word} {c : MemCause} (h : accessFault s.cfg addr .word = some c) :
    s.readWordHost addr = .error (.hostRead c addr) := by
  simp [State.readWordHost, State.memRead_error h]

/-! ## Loads and stores -/

/-- Everything a load can do (43_loadstore.md rule R130). -/
theorem State.load_cases (s : State) (w ea : Word) (width : Width) (ext : Word → Word) (rt : Reg) :
    (∃ c, accessFault s.cfg ea width = some c ∧
      s.load w ea width ext rt = .next (s.takeFault .memoryFault (some c) (some w) (some ea) none)) ∨
    (accessFault s.cfg ea width = none ∧
      s.load w ea width ext rt =
        .next ((s.setReg rt (ext (Memory.load s.mem ea.toNat (widthBytes width)))).commit none)) := by
  rcases s.memRead_cases ea width with ⟨c, h, hr⟩ | ⟨h, hr⟩
  · exact .inl ⟨c, h, by simp only [State.load, hr, State.loadFault]⟩
  · exact .inr ⟨h, by simp only [State.load, hr, State.complete]⟩

/-- Everything a store can do (43_loadstore.md rule R130). -/
theorem State.store_cases (s : State) (w ea : Word) (width : Width) (v : Word) :
    (∃ c, accessFault s.cfg ea width = some c ∧
      s.store w ea width v = .next (s.takeFault .memoryFault (some c) (some w) (some ea) (some v))) ∨
    (accessFault s.cfg ea width = none ∧
      s.store w ea width v =
        .next (State.commit { s with mem := Memory.store s.mem ea.toNat v (widthBytes width) } none)) := by
  cases h : accessFault s.cfg ea width with
  | some c => exact .inl ⟨c, rfl, by simp only [State.store, State.memWrite, h, State.storeFault]⟩
  | none => exact .inr ⟨rfl, by simp only [State.store, State.memWrite, h, State.complete]⟩

/-- The frame and the bytes of a store that commits (20_memory.md rule R37). -/
theorem State.writesMemory_store (s : State) (a n : Nat) (v : Word) :
    WritesMemory s (State.commit { s with mem := Memory.store s.mem a v n } none) a n v where
  commits := s.commits_of _ none rfl rfl rfl rfl rfl rfl
  quiet := ⟨rfl, rfl, rfl, rfl⟩
  regs := fun r => by rw [State.reg_commit]; rfl
  hilo := ⟨rfl, rfl⟩
  stored := fun k hk => by
    rw [State.commit_mem, Memory.read_store, if_pos (by omega), show a + k - a = k by omega]
    apply BitVec.eq_of_toNat_eq
    simp [Nat.shiftRight_eq_div_pow]
  frame := fun b hb => by
    rw [State.commit_mem, Memory.read_store, if_neg (by omega)]

/-! ## Checked arithmetic -/

/-- Everything a checked addition can do (41_alu.md rule R90). -/
theorem State.addChecked_cases (s : State) (w : Word) (d : Reg) (a b : Word) :
    (addOverflows a b = true ∧ s.addChecked w d a b = .next (s.takeFault .overflowFault none (some w) none none)) ∨
    (addOverflows a b = false ∧ s.addChecked w d a b = .next ((s.setReg d (a + b)).commit none)) := by
  unfold State.addChecked
  cases addOverflows a b with
  | true => exact .inl ⟨rfl, rfl⟩
  | false => exact .inr ⟨rfl, rfl⟩

/-- Everything a checked subtraction can do (41_alu.md rule R90). -/
theorem State.subChecked_cases (s : State) (w : Word) (d : Reg) (a b : Word) :
    (subOverflows a b = true ∧ s.subChecked w d a b = .next (s.takeFault .overflowFault none (some w) none none)) ∨
    (subOverflows a b = false ∧ s.subChecked w d a b = .next ((s.setReg d (a - b)).commit none)) := by
  unfold State.subChecked
  cases subOverflows a b with
  | true => exact .inl ⟨rfl, rfl⟩
  | false => exact .inr ⟨rfl, rfl⟩

end Sys2Proof.Machine
end

