-- ==== Sys2Proof/Laws/Exec.lean ====
section
/-! SUPPORT. What an instruction and a step can do, said once: an instruction takes a fault, or commits a `next` buffer, or
is the halting SYSCALL. -/

namespace Sys2Proof.Machine

/-- What an instruction's `next` buffer keeps of the state it was made from: all that the commit reads or leaves. -/
structure Keeps (s n : State) : Prop where
  pc       : n.pc = s.pc
  redirect : n.redirect = s.redirect
  count    : n.instructionCount = s.instructionCount
  diag     : n.diag = s.diag
  program  : n.programSizeWords = s.programSizeWords
  cfg      : n.cfg = s.cfg
  runFlag  : n.runFlag = s.runFlag
  env      : (∀ k, s.env ≠ .draws k) → n.env = s.env

/-- How an instruction's cycle ends. -/
inductive ExecEnds (i : Instr) (s : State) : Outcome → Prop where
  | fault (k : FaultKind) (c : Option MemCause) (w : Word) (a v : Option Word)
      (shaped : (DiagRecord.mk k c s.pc (some w) a v s.instructionCount).shaped = true) :
      ExecEnds i s (.next (s.takeFault k c (some w) a v))
  | commit (n : State) (out : Option Word) (keeps : Keeps s n)
      (redirect : i.isTransfer = false → out = none)
      (hi : n.hi ≠ s.hi → i.writesHi = true) (lo : n.lo ≠ s.lo → i.writesLo = true)
      (memory : n.mem = s.mem ∨ ∃ rs imm width v, i.asStore = some (rs, imm, width) ∧
        accessFault s.cfg (s.effectiveAddress rs imm) width = none ∧
        n.mem = Memory.store s.mem (s.effectiveAddress rs imm).toNat v (widthBytes width)) :
      ExecEnds i s (.next (n.commit out))
  | halt (isSyscall : i.isSyscall = true) (selector : s.reg 2#5 = s.cfg.haltSelector) :
      ExecEnds i s (.next (s.commit none).stop)

theorem Keeps.refl (s : State) : Keeps s s := ⟨rfl, rfl, rfl, rfl, rfl, rfl, rfl, fun _ => rfl⟩

/-- A commit of a buffer that keeps memory, HI and LO. -/
theorem ExecEnds.plain {i : Instr} {s n : State} {out : Option Word} (keeps : Keeps s n)
    (redirect : i.isTransfer = false → out = none) (hi : n.hi = s.hi) (lo : n.lo = s.lo) (mem : n.mem = s.mem) :
    ExecEnds i s (.next (n.commit out)) :=
  .commit n out keeps redirect (absurd hi) (absurd lo) (.inl mem)

/-- A commit of a buffer that keeps memory, by an instruction that writes HI and LO. -/
theorem ExecEnds.hilo {i : Instr} {s n : State} (keeps : Keeps s n) (hi : i.writesHi = true) (lo : i.writesLo = true)
    (mem : n.mem = s.mem) : ExecEnds i s (.next (n.commit none)) :=
  .commit n none keeps (fun _ => rfl) (fun _ => hi) (fun _ => lo) (.inl mem)

theorem State.result_ends (i : Instr) (s : State) (d : Reg) (v : Word) : ExecEnds i s (s.result d v) :=
  .plain (n := s.setReg d v) ⟨rfl, rfl, rfl, rfl, rfl, rfl, rfl, fun _ => rfl⟩ (fun _ => rfl) rfl rfl rfl

theorem State.addChecked_ends (i : Instr) (s : State) (w : Word) (d : Reg) (a b : Word) :
    ExecEnds i s (s.addChecked w d a b) := by
  unfold State.addChecked
  split
  · exact .fault .overflowFault none w none none rfl
  · exact s.result_ends i d (a + b)

theorem State.subChecked_ends (i : Instr) (s : State) (w : Word) (d : Reg) (a b : Word) :
    ExecEnds i s (s.subChecked w d a b) := by
  unfold State.subChecked
  split
  · exact .fault .overflowFault none w none none rfl
  · exact s.result_ends i d (a - b)

theorem State.load_ends (i : Instr) (s : State) (w ea : Word) (width : Width) (ext : Word → Word) (rt : Reg) :
    ExecEnds i s (s.load w ea width ext rt) := by
  rcases s.load_cases w ea width ext rt with ⟨c, -, h⟩ | ⟨-, h⟩ <;> rw [h]
  · exact .fault .memoryFault (some c) w (some ea) none rfl
  · exact s.result_ends i rt _

theorem State.store_ends (i : Instr) (s : State) (rs : Reg) (imm : Imm16) (w : Word) (width : Width) (v : Word)
    (hi : i.asStore = some (rs, imm, width)) : ExecEnds i s (s.store w (s.effectiveAddress rs imm) width v) := by
  rcases s.store_cases w (s.effectiveAddress rs imm) width v with ⟨c, -, h⟩ | ⟨ha, h⟩ <;> rw [h]
  · exact .fault .memoryFault (some c) w _ (some v) rfl
  · exact .commit _ none ⟨rfl, rfl, rfl, rfl, rfl, rfl, rfl, fun _ => rfl⟩ (fun _ => rfl) (absurd rfl) (absurd rfl)
      (.inr ⟨rs, imm, width, v, hi, ha, rfl⟩)

theorem State.transfer_ends (i : Instr) (s : State) (out : Option Word) (h : i.isTransfer = true) :
    ExecEnds i s (s.transfer out) :=
  .plain (Keeps.refl s) (fun h' => absurd h (by simp [h'])) rfl rfl rfl

theorem State.link_ends (i : Instr) (s : State) (out : Option Word) (h : i.isTransfer = true) :
    ExecEnds i s (s.link.transfer out) :=
  .plain (n := s.link) ⟨rfl, rfl, rfl, rfl, rfl, rfl, rfl, fun _ => rfl⟩ (fun h' => absurd h (by simp [h'])) rfl rfl rfl

theorem execDiv_ends (i : Instr) (rs rt : Reg) (s : State) (hi : i.writesHi = true) (lo : i.writesLo = true) :
    ExecEnds i s (execDiv rs rt s) := by
  unfold execDiv State.divideSigned
  split
  · exact .hilo (Keeps.refl s) hi lo rfl
  · exact .hilo (n := s.writeQuotient _ _) ⟨rfl, rfl, rfl, rfl, rfl, rfl, rfl, fun _ => rfl⟩ hi lo rfl

theorem execDivu_ends (i : Instr) (rs rt : Reg) (s : State) (hi : i.writesHi = true) (lo : i.writesLo = true) :
    ExecEnds i s (execDivu rs rt s) := by
  unfold execDivu State.divideUnsigned
  split
  · exact .hilo (Keeps.refl s) hi lo rfl
  · exact .hilo (n := s.writeQuotient _ _) ⟨rfl, rfl, rfl, rfl, rfl, rfl, rfl, fun _ => rfl⟩ hi lo rfl

theorem execLbu_ends (i : Instr) (rs rt : Reg) (imm : Imm16) (s : State) : ExecEnds i s (execLbu rs rt imm s) := by
  unfold execLbu
  split
  · exact s.load_ends i _ _ _ _ _
  · exact .fault .decodeFault none _ none none rfl

theorem execLhu_ends (i : Instr) (rs rt : Reg) (imm : Imm16) (s : State) : ExecEnds i s (execLhu rs rt imm s) := by
  unfold execLhu
  split
  · exact s.load_ends i _ _ _ _ _
  · exact .fault .decodeFault none _ none none rfl

theorem execSyscall_ends (i : Instr) (s : State) (h : i.isSyscall = true) : ExecEnds i s (execSyscall s) := by
  unfold execSyscall
  split
  · exact .halt h ‹_›
  · exact .plain (n := s.callEnv _) ⟨rfl, rfl, rfl, rfl, rfl, rfl, rfl, State.envAfterCall_of_fixed⟩ (fun _ => rfl) rfl rfl rfl

/-- Everything an instruction can do (40_cycle.md rules R74 to R77). -/
theorem exec_ends (i : Instr) (s : State) : ExecEnds i s (exec i s) := by
  cases i with
  | add rs rt rd sh => exact s.addChecked_ends _ _ _ _ _
  | addi rs rt imm => exact s.addChecked_ends _ _ _ _ _
  | sub rs rt rd sh => exact s.subChecked_ends _ _ _ _ _
  | mult rs rt rd sh => exact .hilo (n := s.writeProduct _) ⟨rfl, rfl, rfl, rfl, rfl, rfl, rfl, fun _ => rfl⟩ rfl rfl rfl
  | multu rs rt rd sh => exact .hilo (n := s.writeProduct _) ⟨rfl, rfl, rfl, rfl, rfl, rfl, rfl, fun _ => rfl⟩ rfl rfl rfl
  | div rs rt rd sh => exact execDiv_ends _ rs rt s rfl rfl
  | divu rs rt rd sh => exact execDivu_ends _ rs rt s rfl rfl
  | mthi rs rt rd sh =>
    exact .commit (s.setHi _) none ⟨rfl, rfl, rfl, rfl, rfl, rfl, rfl, fun _ => rfl⟩ (fun _ => rfl) (fun _ => rfl) (absurd rfl) (.inl rfl)
  | mtlo rs rt rd sh =>
    exact .commit (s.setLo _) none ⟨rfl, rfl, rfl, rfl, rfl, rfl, rfl, fun _ => rfl⟩ (fun _ => rfl) (absurd rfl) (fun _ => rfl) (.inl rfl)
  | lb rs rt imm => exact s.load_ends _ _ _ _ _ _
  | lh rs rt imm => exact s.load_ends _ _ _ _ _ _
  | lw rs rt imm => exact s.load_ends _ _ _ _ _ _
  | lbu rs rt imm => exact execLbu_ends _ rs rt imm s
  | lhu rs rt imm => exact execLhu_ends _ rs rt imm s
  | sb rs rt imm => exact s.store_ends _ rs imm _ .byte _ rfl
  | sh rs rt imm => exact s.store_ends _ rs imm _ .half _ rfl
  | sw rs rt imm => exact s.store_ends _ rs imm _ .word _ rfl
  | beq rs rt imm => exact s.transfer_ends _ _ rfl
  | bne rs rt imm => exact s.transfer_ends _ _ rfl
  | blez rs rt imm => exact s.transfer_ends _ _ rfl
  | bgtz rs rt imm => exact s.transfer_ends _ _ rfl
  | j target => exact s.transfer_ends _ _ rfl
  | jal target => exact s.link_ends _ _ rfl
  | jr rs rt rd sh => exact s.transfer_ends _ _ rfl
  | jalr rs rt rd sh => exact s.link_ends _ _ rfl
  | syscall rs rt rd sh => exact execSyscall_ends _ s rfl
  | sll rs rt rd sh => exact s.result_ends _ rd _
  | srl rs rt rd sh => exact s.result_ends _ rd _
  | sra rs rt rd sh => exact s.result_ends _ rd _
  | addu rs rt rd sh => exact s.result_ends _ rd _
  | subu rs rt rd sh => exact s.result_ends _ rd _
  | and rs rt rd sh => exact s.result_ends _ rd _
  | or rs rt rd sh => exact s.result_ends _ rd _
  | xor rs rt rd sh => exact s.result_ends _ rd _
  | nor rs rt rd sh => exact s.result_ends _ rd _
  | slt rs rt rd sh => exact s.result_ends _ rd _
  | mfhi rs rt rd sh => exact s.result_ends _ rd _
  | mflo rs rt rd sh => exact s.result_ends _ rd _
  | addiu rs rt imm => exact s.result_ends _ rt _
  | slti rs rt imm => exact s.result_ends _ rt _
  | andi rs rt imm => exact s.result_ends _ rt _
  | ori rs rt imm => exact s.result_ends _ rt _
  | xori rs rt imm => exact s.result_ends _ rt _
  | lui rs rt imm => exact s.result_ends _ rt _

/-! ## The step -/

/-- A step while HALTED does nothing (40_cycle.md rule R78). -/
theorem step_halted {s : State} (h : s.runFlag = false) : step s = .next s := by simp [step, h]

/-- Everything a step can do while RUNNING (40_cycle.md rules R70 and R72). -/
theorem step_running {s : State} (h : s.runFlag = true) :
    (∃ c, s.fetch = .error c ∧ step s = .next (s.takeFault .memoryFault (some c) none (some s.pc) none)) ∨
    (∃ w e, s.fetch = .ok w ∧ decode w = .error e ∧
      step s = .next (s.takeFault .decodeFault none (some w) none none)) ∨
    (∃ w i, s.fetch = .ok w ∧ decode w = .ok i ∧ step s = exec i s) := by
  simp only [step, h, if_true, cycle]
  cases hf : s.fetch with
  | error c => exact .inl ⟨c, rfl, rfl⟩
  | ok w =>
    cases hd : decode w with
    | error e => exact .inr (.inl ⟨w, e, rfl, hd, by simp only [hd, State.decodeFault]⟩)
    | ok i => exact .inr (.inr ⟨w, i, rfl, hd, by simp only [hd]⟩)

end Sys2Proof.Machine
end

