-- ==== Sys2Proof/Laws/PerInstr.lean ====
section
/-! SUPPORT. Statements made per instruction. The family `EncodeTable`: the word `encode` writes for an instruction is one
its row of spec/opcode_table.json matches: under the row's mask it is the row's match. The masks and matches below are
the table's own columns, written beside the encoder and not taken from it. -/

namespace Sys2Proof.Laws

/-- Under the R-format mask a word of the encoder is its function code (30_encoding.md rules R52 and R56). -/
theorem encodeR_masked (rs rt rd : Reg) (sh : Shamt) (f : BitVec 6) :
    encodeR rs rt rd sh f &&& 0xFC00003F#32 = f.setWidth 32 := by
  apply BitVec.eq_of_getLsbD_eq
  intro i hi
  simp only [encodeR, BitVec.getLsbD_and, BitVec.getLsbD_append, BitVec.getLsbD_setWidth]
  interval_cases i <;> simp

/-- Under the I-format mask a word of the encoder is its opcode (30_encoding.md rules R53 and R56). -/
theorem encodeI_masked (op : BitVec 6) (rs rt : Reg) (imm : Imm16) :
    encodeI op rs rt imm &&& 0xFC000000#32 = op ++ 0#26 := by
  apply BitVec.eq_of_getLsbD_eq
  intro i hi
  simp only [encodeI, BitVec.getLsbD_and, BitVec.getLsbD_append]
  interval_cases i <;> simp

/-- Under the J-format mask a word of the encoder is its opcode (30_encoding.md rules R54 and R56). -/
theorem encodeJ_masked (op : BitVec 6) (target : Target26) :
    encodeJ op target &&& 0xFC000000#32 = op ++ 0#26 := by
  apply BitVec.eq_of_getLsbD_eq
  intro i hi
  simp only [encodeJ, BitVec.getLsbD_and, BitVec.getLsbD_append]
  interval_cases i <;> simp

/-- The `mask` and the `match` of the instruction's row of spec/opcode_table.json. -/
def EncodeTable.row : Instr → Word × Word
  | .sll .. => (0xFC00003F#32, 0x00000000#32)
  | .srl .. => (0xFC00003F#32, 0x00000002#32)
  | .sra .. => (0xFC00003F#32, 0x00000003#32)
  | .jr .. => (0xFC00003F#32, 0x00000008#32)
  | .jalr .. => (0xFC00003F#32, 0x00000009#32)
  | .syscall .. => (0xFC00003F#32, 0x0000000C#32)
  | .mfhi .. => (0xFC00003F#32, 0x00000010#32)
  | .mthi .. => (0xFC00003F#32, 0x00000011#32)
  | .mflo .. => (0xFC00003F#32, 0x00000012#32)
  | .mtlo .. => (0xFC00003F#32, 0x00000013#32)
  | .mult .. => (0xFC00003F#32, 0x00000018#32)
  | .multu .. => (0xFC00003F#32, 0x00000019#32)
  | .div .. => (0xFC00003F#32, 0x0000001A#32)
  | .divu .. => (0xFC00003F#32, 0x0000001B#32)
  | .add .. => (0xFC00003F#32, 0x00000020#32)
  | .addu .. => (0xFC00003F#32, 0x00000021#32)
  | .sub .. => (0xFC00003F#32, 0x00000022#32)
  | .subu .. => (0xFC00003F#32, 0x00000023#32)
  | .and .. => (0xFC00003F#32, 0x00000024#32)
  | .or .. => (0xFC00003F#32, 0x00000025#32)
  | .xor .. => (0xFC00003F#32, 0x00000026#32)
  | .nor .. => (0xFC00003F#32, 0x00000027#32)
  | .slt .. => (0xFC00003F#32, 0x0000002A#32)
  | .j .. => (0xFC000000#32, 0x08000000#32)
  | .jal .. => (0xFC000000#32, 0x0C000000#32)
  | .beq .. => (0xFC000000#32, 0x10000000#32)
  | .bne .. => (0xFC000000#32, 0x14000000#32)
  | .blez .. => (0xFC000000#32, 0x18000000#32)
  | .bgtz .. => (0xFC000000#32, 0x1C000000#32)
  | .addi .. => (0xFC000000#32, 0x20000000#32)
  | .addiu .. => (0xFC000000#32, 0x24000000#32)
  | .slti .. => (0xFC000000#32, 0x28000000#32)
  | .andi .. => (0xFC000000#32, 0x30000000#32)
  | .ori .. => (0xFC000000#32, 0x34000000#32)
  | .xori .. => (0xFC000000#32, 0x38000000#32)
  | .lui .. => (0xFC000000#32, 0x3C000000#32)
  | .lb .. => (0xFC000000#32, 0x80000000#32)
  | .lh .. => (0xFC000000#32, 0x84000000#32)
  | .lw .. => (0xFC000000#32, 0x8C000000#32)
  | .lbu .. => (0xFC000000#32, 0x90000000#32)
  | .lhu .. => (0xFC000000#32, 0x94000000#32)
  | .sb .. => (0xFC000000#32, 0xA0000000#32)
  | .sh .. => (0xFC000000#32, 0xA4000000#32)
  | .sw .. => (0xFC000000#32, 0xAC000000#32)

/-- The instruction's word matches its row of the opcode table. -/
def EncodeTable.Statement (i : Instr) : Prop := encode i &&& (EncodeTable.row i).1 = (EncodeTable.row i).2

theorem EncodeTable.sll (rs rt rd : Reg) (sh : Shamt) :
    EncodeTable.Statement (.sll rs rt rd sh) := encodeR_masked rs rt rd sh _
theorem EncodeTable.srl (rs rt rd : Reg) (sh : Shamt) :
    EncodeTable.Statement (.srl rs rt rd sh) := encodeR_masked rs rt rd sh _
theorem EncodeTable.sra (rs rt rd : Reg) (sh : Shamt) :
    EncodeTable.Statement (.sra rs rt rd sh) := encodeR_masked rs rt rd sh _
theorem EncodeTable.jr (rs rt rd : Reg) (sh : Shamt) :
    EncodeTable.Statement (.jr rs rt rd sh) := encodeR_masked rs rt rd sh _
theorem EncodeTable.jalr (rs rt rd : Reg) (sh : Shamt) :
    EncodeTable.Statement (.jalr rs rt rd sh) := encodeR_masked rs rt rd sh _
theorem EncodeTable.syscall (rs rt rd : Reg) (sh : Shamt) :
    EncodeTable.Statement (.syscall rs rt rd sh) := encodeR_masked rs rt rd sh _
theorem EncodeTable.mfhi (rs rt rd : Reg) (sh : Shamt) :
    EncodeTable.Statement (.mfhi rs rt rd sh) := encodeR_masked rs rt rd sh _
theorem EncodeTable.mthi (rs rt rd : Reg) (sh : Shamt) :
    EncodeTable.Statement (.mthi rs rt rd sh) := encodeR_masked rs rt rd sh _
theorem EncodeTable.mflo (rs rt rd : Reg) (sh : Shamt) :
    EncodeTable.Statement (.mflo rs rt rd sh) := encodeR_masked rs rt rd sh _
theorem EncodeTable.mtlo (rs rt rd : Reg) (sh : Shamt) :
    EncodeTable.Statement (.mtlo rs rt rd sh) := encodeR_masked rs rt rd sh _
theorem EncodeTable.mult (rs rt rd : Reg) (sh : Shamt) :
    EncodeTable.Statement (.mult rs rt rd sh) := encodeR_masked rs rt rd sh _
theorem EncodeTable.multu (rs rt rd : Reg) (sh : Shamt) :
    EncodeTable.Statement (.multu rs rt rd sh) := encodeR_masked rs rt rd sh _
theorem EncodeTable.div (rs rt rd : Reg) (sh : Shamt) :
    EncodeTable.Statement (.div rs rt rd sh) := encodeR_masked rs rt rd sh _
theorem EncodeTable.divu (rs rt rd : Reg) (sh : Shamt) :
    EncodeTable.Statement (.divu rs rt rd sh) := encodeR_masked rs rt rd sh _
theorem EncodeTable.add (rs rt rd : Reg) (sh : Shamt) :
    EncodeTable.Statement (.add rs rt rd sh) := encodeR_masked rs rt rd sh _
theorem EncodeTable.addu (rs rt rd : Reg) (sh : Shamt) :
    EncodeTable.Statement (.addu rs rt rd sh) := encodeR_masked rs rt rd sh _
theorem EncodeTable.sub (rs rt rd : Reg) (sh : Shamt) :
    EncodeTable.Statement (.sub rs rt rd sh) := encodeR_masked rs rt rd sh _
theorem EncodeTable.subu (rs rt rd : Reg) (sh : Shamt) :
    EncodeTable.Statement (.subu rs rt rd sh) := encodeR_masked rs rt rd sh _
theorem EncodeTable.and (rs rt rd : Reg) (sh : Shamt) :
    EncodeTable.Statement (.and rs rt rd sh) := encodeR_masked rs rt rd sh _
theorem EncodeTable.or (rs rt rd : Reg) (sh : Shamt) :
    EncodeTable.Statement (.or rs rt rd sh) := encodeR_masked rs rt rd sh _
theorem EncodeTable.xor (rs rt rd : Reg) (sh : Shamt) :
    EncodeTable.Statement (.xor rs rt rd sh) := encodeR_masked rs rt rd sh _
theorem EncodeTable.nor (rs rt rd : Reg) (sh : Shamt) :
    EncodeTable.Statement (.nor rs rt rd sh) := encodeR_masked rs rt rd sh _
theorem EncodeTable.slt (rs rt rd : Reg) (sh : Shamt) :
    EncodeTable.Statement (.slt rs rt rd sh) := encodeR_masked rs rt rd sh _
theorem EncodeTable.j (target : Target26) :
    EncodeTable.Statement (.j target) := encodeJ_masked _ target
theorem EncodeTable.jal (target : Target26) :
    EncodeTable.Statement (.jal target) := encodeJ_masked _ target
theorem EncodeTable.beq (rs rt : Reg) (imm : Imm16) :
    EncodeTable.Statement (.beq rs rt imm) := encodeI_masked _ rs rt imm
theorem EncodeTable.bne (rs rt : Reg) (imm : Imm16) :
    EncodeTable.Statement (.bne rs rt imm) := encodeI_masked _ rs rt imm
theorem EncodeTable.blez (rs rt : Reg) (imm : Imm16) :
    EncodeTable.Statement (.blez rs rt imm) := encodeI_masked _ rs rt imm
theorem EncodeTable.bgtz (rs rt : Reg) (imm : Imm16) :
    EncodeTable.Statement (.bgtz rs rt imm) := encodeI_masked _ rs rt imm
theorem EncodeTable.addi (rs rt : Reg) (imm : Imm16) :
    EncodeTable.Statement (.addi rs rt imm) := encodeI_masked _ rs rt imm
theorem EncodeTable.addiu (rs rt : Reg) (imm : Imm16) :
    EncodeTable.Statement (.addiu rs rt imm) := encodeI_masked _ rs rt imm
theorem EncodeTable.slti (rs rt : Reg) (imm : Imm16) :
    EncodeTable.Statement (.slti rs rt imm) := encodeI_masked _ rs rt imm
theorem EncodeTable.andi (rs rt : Reg) (imm : Imm16) :
    EncodeTable.Statement (.andi rs rt imm) := encodeI_masked _ rs rt imm
theorem EncodeTable.ori (rs rt : Reg) (imm : Imm16) :
    EncodeTable.Statement (.ori rs rt imm) := encodeI_masked _ rs rt imm
theorem EncodeTable.xori (rs rt : Reg) (imm : Imm16) :
    EncodeTable.Statement (.xori rs rt imm) := encodeI_masked _ rs rt imm
theorem EncodeTable.lui (rs rt : Reg) (imm : Imm16) :
    EncodeTable.Statement (.lui rs rt imm) := encodeI_masked _ rs rt imm
theorem EncodeTable.lb (rs rt : Reg) (imm : Imm16) :
    EncodeTable.Statement (.lb rs rt imm) := encodeI_masked _ rs rt imm
theorem EncodeTable.lh (rs rt : Reg) (imm : Imm16) :
    EncodeTable.Statement (.lh rs rt imm) := encodeI_masked _ rs rt imm
theorem EncodeTable.lw (rs rt : Reg) (imm : Imm16) :
    EncodeTable.Statement (.lw rs rt imm) := encodeI_masked _ rs rt imm
theorem EncodeTable.lbu (rs rt : Reg) (imm : Imm16) :
    EncodeTable.Statement (.lbu rs rt imm) := encodeI_masked _ rs rt imm
theorem EncodeTable.lhu (rs rt : Reg) (imm : Imm16) :
    EncodeTable.Statement (.lhu rs rt imm) := encodeI_masked _ rs rt imm
theorem EncodeTable.sb (rs rt : Reg) (imm : Imm16) :
    EncodeTable.Statement (.sb rs rt imm) := encodeI_masked _ rs rt imm
theorem EncodeTable.sh (rs rt : Reg) (imm : Imm16) :
    EncodeTable.Statement (.sh rs rt imm) := encodeI_masked _ rs rt imm
theorem EncodeTable.sw (rs rt : Reg) (imm : Imm16) :
    EncodeTable.Statement (.sw rs rt imm) := encodeI_masked _ rs rt imm

end Sys2Proof.Laws
end

