-- ==== Sys2Proof/Tests/Slice0.lean ====
section
/-! SUPPORT. The model's own tests: the checks of WellFormed, one word of every instruction written out bit by bit from
spec/30_encoding.md, at most two single steps of an instruction with results from spec/95_test_vectors.md, and a witness
for the hypotheses of every statement. -/

namespace Sys2Proof.Tests

open Sys2Proof Sys2Proof.Machine

/-! ## Helpers -/

/-- The state after reset with a word to fetch and some registers written through the host's API. -/
def start (w : Nat) (regs : List (Reg × Word)) : State :=
  regs.foldl (fun s p => s.hostSetGpr p.1 p.2) (State.reset.withFetchWord 32 w)

/-- `start` with the unsigned loads implemented. -/
def startUnsigned (w : Nat) (regs : List (Reg × Word)) : State :=
  { start w regs with cfg := { Config.default with hasUnsignedLoads := true } }

/-- The bytes the load rows of 95_test_vectors.md 2.5 start from, above those of the program. -/
def withData (s : State) : State :=
  { s with mem := s.mem ++ [(0x10000000, 0x80), (0x10000001, 0x7F), (0x10000002, 0xFF), (0x10000003, 0x01),
      (0x10000004, 0x78), (0x10000005, 0x56), (0x10000006, 0x34), (0x10000007, 0x92)] }

/-- What is read off the next state. -/
def seen {α : Type} (f : State → α) : Outcome → Option α
  | .next t => some (f t)
  | _ => none

/-- The state a step answers, if it answers one. -/
def after (s : State) : State :=
  match step s with
  | .next t => t
  | _ => s

/-- A register after one step. -/
def regAfter (r : Reg) (s : State) : Option Word := seen (fun t => t.reg r) (step s)

/-- HI and LO after one step. -/
def hiloAfter (s : State) : Option (Word × Word) := seen (fun t => (t.hi, t.lo)) (step s)

/-- The redirect after one step, with the program counter. -/
def redirectAfter (s : State) : Option (Word × Option Word) := seen (fun t => (t.pc, t.redirect)) (step s)

/-- A word of memory after one step. -/
def wordAfter (a : Nat) (s : State) : Option Word := seen (fun t => Memory.load t.mem a 4) (step s)

/-- The fault after one step: the run flag, the kind, the cause, the address. -/
def faultAfter (s : State) : Option (Bool × Option (FaultKind × Option MemCause × Option Word)) :=
  seen (fun t => (t.runFlag, t.diag.map (fun d => (d.kind, d.cause, d.addr)))) (step s)

/-! ## WellFormed: each check refuses a term that breaks it, and nothing else does (00_scope.md rules R4, R5) -/

theorem test_wf_default : Config.default.wf = true := by decide

theorem test_wf_text_base :
    ({ Config.default with text := ⟨0x00400002, 0x004FFFFF⟩ }).wf = false ∧
      ({ Config.default with text := ⟨0x00400002, 0x004FFFFF⟩ }).textBaseAligned = false :=
  by decide
theorem test_wf_text_end :
    ({ Config.default with text := ⟨0x00400000, 0x004FFFFE⟩ }).wf = false ∧
      ({ Config.default with text := ⟨0x00400000, 0x004FFFFE⟩ }).textEndAligned = false :=
  by decide
theorem test_wf_text_word :
    ({ Config.default with text := ⟨0x00400000, 0x003FFFFF⟩ }).wf = false ∧
      ({ Config.default with text := ⟨0x00400000, 0x003FFFFF⟩ }).textHoldsAWord = false :=
  by decide
theorem test_wf_overlap :
    ({ Config.default with ktext := ⟨0x900FFFFF, 0x9010FFFF⟩ }).wf = false ∧
      ({ Config.default with ktext := ⟨0x900FFFFF, 0x9010FFFF⟩ }).regionsDisjoint = false :=
  by decide
theorem test_wf_empty_data :
    ({ Config.default with data := ⟨0xA0000001, 0xA0000000⟩ }).wf = false ∧
      ({ Config.default with data := ⟨0xA0000001, 0xA0000000⟩ }).data.nonempty = false :=
  by decide
theorem test_wf_empty_kdata :
    ({ Config.default with kdata := ⟨0xA0000001, 0xA0000000⟩ }).wf = false ∧
      ({ Config.default with kdata := ⟨0xA0000001, 0xA0000000⟩ }).kdata.nonempty = false :=
  by decide
theorem test_wf_empty_ktext :
    ({ Config.default with ktext := ⟨0xA0000001, 0xA0000000⟩ }).wf = false ∧
      ({ Config.default with ktext := ⟨0xA0000001, 0xA0000000⟩ }).ktext.nonempty = false :=
  by decide
theorem test_wf_unsigned_loads :
    Instr.wf Config.default (.lbu 1 2 0) = false ∧ Instr.wf Config.default (.lhu 1 2 0) = false ∧
      Instr.wf { Config.default with hasUnsignedLoads := true } (.lbu 1 2 0) = true := by decide
theorem test_wf_instr : Instr.wf Config.default (.add 1 2 3 0) = true := by decide

theorem test_wf_disjoint_text_data :
    ({ Config.default with data := Config.default.text }).regionsDisjoint = false := by decide
theorem test_wf_disjoint_text_kdata :
    ({ Config.default with kdata := Config.default.text }).regionsDisjoint = false := by decide
theorem test_wf_disjoint_text_ktext :
    ({ Config.default with ktext := Config.default.text }).regionsDisjoint = false := by decide
theorem test_wf_disjoint_data_kdata :
    ({ Config.default with kdata := Config.default.data }).regionsDisjoint = false := by decide
theorem test_wf_disjoint_data_ktext :
    ({ Config.default with ktext := Config.default.data }).regionsDisjoint = false := by decide
theorem test_wf_disjoint_kdata_ktext :
    ({ Config.default with ktext := Config.default.kdata }).regionsDisjoint = false := by decide

/-! ## Decode: one word of each instruction, bit by bit (30_encoding.md rules R52 to R54, R57, R58) -/

theorem test_decode_sll : decode 0b000000_00001_00010_00011_00100_000000#32 = .ok (.sll 1 2 3 4) := by decide
theorem test_decode_srl : decode 0b000000_00100_00111_01010_01111_000010#32 = .ok (.srl 4 7 10 15) := by decide
theorem test_decode_sra : decode 0b000000_00111_01100_10001_11010_000011#32 = .ok (.sra 7 12 17 26) := by decide
theorem test_decode_jr : decode 0b000000_01010_10001_11000_00101_001000#32 = .ok (.jr 10 17 24 5) := by decide
theorem test_decode_jalr : decode 0b000000_01101_10110_11111_10000_001001#32 = .ok (.jalr 13 22 31 16) := by decide
theorem test_decode_syscall :
    decode 0b000000_10000_11011_00110_11011_001100#32 = .ok (.syscall 16 27 6 27) := by decide
theorem test_decode_mfhi : decode 0b000000_10011_00000_01101_00110_010000#32 = .ok (.mfhi 19 0 13 6) := by decide
theorem test_decode_mthi : decode 0b000000_10110_00101_10100_10001_010001#32 = .ok (.mthi 22 5 20 17) := by decide
theorem test_decode_mflo : decode 0b000000_11001_01010_11011_11100_010010#32 = .ok (.mflo 25 10 27 28) := by decide
theorem test_decode_mtlo : decode 0b000000_11100_01111_00010_00111_010011#32 = .ok (.mtlo 28 15 2 7) := by decide
theorem test_decode_mult : decode 0b000000_11111_10100_01001_10010_011000#32 = .ok (.mult 31 20 9 18) := by decide
theorem test_decode_multu : decode 0b000000_00010_11001_10000_11101_011001#32 = .ok (.multu 2 25 16 29) := by decide
theorem test_decode_div : decode 0b000000_00101_11110_10111_01000_011010#32 = .ok (.div 5 30 23 8) := by decide
theorem test_decode_divu : decode 0b000000_01000_00011_11110_10011_011011#32 = .ok (.divu 8 3 30 19) := by decide
theorem test_decode_add : decode 0b000000_01011_01000_00101_11110_100000#32 = .ok (.add 11 8 5 30) := by decide
theorem test_decode_addu : decode 0b000000_01110_01101_01100_01001_100001#32 = .ok (.addu 14 13 12 9) := by decide
theorem test_decode_sub : decode 0b000000_10001_10010_10011_10100_100010#32 = .ok (.sub 17 18 19 20) := by decide
theorem test_decode_subu : decode 0b000000_10100_10111_11010_11111_100011#32 = .ok (.subu 20 23 26 31) := by decide
theorem test_decode_and : decode 0b000000_10111_11100_00001_01010_100100#32 = .ok (.and 23 28 1 10) := by decide
theorem test_decode_or : decode 0b000000_11010_00001_01000_10101_100101#32 = .ok (.or 26 1 8 21) := by decide
theorem test_decode_xor : decode 0b000000_11101_00110_01111_00000_100110#32 = .ok (.xor 29 6 15 0) := by decide
theorem test_decode_nor : decode 0b000000_00000_01011_10110_01011_100111#32 = .ok (.nor 0 11 22 11) := by decide
theorem test_decode_slt : decode 0b000000_00011_10000_11101_10110_101010#32 = .ok (.slt 3 16 29 22) := by decide
theorem test_decode_beq : decode 0b000100_00001_00010_1000000000000001#32 = .ok (.beq 1 2 0x8001) := by decide
theorem test_decode_bne : decode 0b000101_00100_00111_1001001101011000#32 = .ok (.bne 4 7 0x9358) := by decide
theorem test_decode_blez : decode 0b000110_00111_01100_1010011010101111#32 = .ok (.blez 7 12 0xA6AF) := by decide
theorem test_decode_bgtz : decode 0b000111_01010_10001_1011101000000110#32 = .ok (.bgtz 10 17 0xBA06) := by decide
theorem test_decode_addi : decode 0b001000_01101_10110_1100110101011101#32 = .ok (.addi 13 22 0xCD5D) := by decide
theorem test_decode_addiu : decode 0b001001_10000_11011_1110000010110100#32 = .ok (.addiu 16 27 0xE0B4) := by decide
theorem test_decode_slti : decode 0b001010_10011_00000_1111010000001011#32 = .ok (.slti 19 0 0xF40B) := by decide
theorem test_decode_andi : decode 0b001100_10110_00101_0000011101100010#32 = .ok (.andi 22 5 0x0762) := by decide
theorem test_decode_ori : decode 0b001101_11001_01010_0001101010111001#32 = .ok (.ori 25 10 0x1AB9) := by decide
theorem test_decode_xori : decode 0b001110_11100_01111_0010111000010000#32 = .ok (.xori 28 15 0x2E10) := by decide
theorem test_decode_lui : decode 0b001111_11111_10100_0100000101100111#32 = .ok (.lui 31 20 0x4167) := by decide
theorem test_decode_lb : decode 0b100000_00010_11001_0101010010111110#32 = .ok (.lb 2 25 0x54BE) := by decide
theorem test_decode_lh : decode 0b100001_00101_11110_0110100000010101#32 = .ok (.lh 5 30 0x6815) := by decide
theorem test_decode_lw : decode 0b100011_01000_00011_0111101101101100#32 = .ok (.lw 8 3 0x7B6C) := by decide
theorem test_decode_lbu : decode 0b100100_01011_01000_1000111011000011#32 = .ok (.lbu 11 8 0x8EC3) := by decide
theorem test_decode_lhu : decode 0b100101_01110_01101_1010001000011010#32 = .ok (.lhu 14 13 0xA21A) := by decide
theorem test_decode_sb : decode 0b101000_10001_10010_1011010101110001#32 = .ok (.sb 17 18 0xB571) := by decide
theorem test_decode_sh : decode 0b101001_10100_10111_1100100011001000#32 = .ok (.sh 20 23 0xC8C8) := by decide
theorem test_decode_sw : decode 0b101011_10111_11100_1101110000011111#32 = .ok (.sw 23 28 0xDC1F) := by decide
theorem test_decode_j : decode 0b000010_10000000000000000000000001#32 = .ok (.j 0x2000001) := by decide
theorem test_decode_jal : decode 0b000011_00000000000000000000000110#32 = .ok (.jal 6) := by decide

/-- SLTU is no instruction (95_test_vectors.md 2.8). -/
theorem test_decode_no_funct : decode 0b000000_00001_00010_00011_00000_101011#32 = .error (.noFunct 0x2B) := by decide
/-- CACHE is no instruction (20_memory.md rule R47). -/
theorem test_decode_no_opcode : decode 0b101111_00001_00010_0000000000000000#32 = .error (.noOpcode 0x2F) := by decide
/-- Little-endian (20_memory.md rule R34). -/
theorem test_decode_bytes : decodeBytes [0x20, 0x18, 0x22, 0x00, 0xFF] = .ok (.add 1 2 3 0, [0xFF]) := by decide
theorem test_decode_truncated : decodeBytes [0x20, 0x18, 0x22] = .error (.truncated 3) := by decide
theorem test_decode_table_word :
    decodeTableWord 32 0x00221820 = some (.add 1 2 3 0) ∧ decodeTableWord 32 0xFFFFFFFF = none := by decide
theorem test_fetch_word : (State.reset.withFetchWord 32 0x00221820).fetch = .ok 0x00221820#32 := by decide

/-- The formats by position (95_test_vectors.md 2.1). -/
theorem test_decode_fields :
    decodeFields 0x03E00008 = .rType 31 0 0 0 0x08 ∧ decodeFields 0xFFFFFFFF = .iType 0x3F 31 31 0xFFFF ∧
      decodeFields 0x0FFFFFFF = .jType 0x03 0x3FFFFFF := by decide

/-! ## Single steps: arithmetic (95_test_vectors.md S2, 2.2, 2.3) -/

/-- S2: the source of an operand is also the destination. -/
theorem test_add_pre_cycle : regAfter 1 (start 0x00410820 [(1, 0x2), (2, 0x3)]) = some 0x5 := by decide
theorem test_add_overflow :
    faultAfter (start 0x00221820 [(1, 0x7FFFFFFF), (2, 0x1), (3, 0x55)]) =
      some (false, some (.overflowFault, none, none)) ∧
      regAfter 3 (start 0x00221820 [(1, 0x7FFFFFFF), (2, 0x1), (3, 0x55)]) = some 0x55 := by decide
theorem test_addu_wraps : regAfter 3 (start 0x00221821 [(1, 0xFFFFFFFF), (2, 0x1), (3, 0x9)]) = some 0x0 := by decide
theorem test_sub_overflow :
    faultAfter (start 0x00221822 [(1, 0x80000000), (2, 0x1), (3, 0x55)]) =
      some (false, some (.overflowFault, none, none)) ∧
      regAfter 3 (start 0x00221822 [(1, 0x80000000), (2, 0x1), (3, 0x55)]) = some 0x55 := by decide
theorem test_sub_order : regAfter 3 (start 0x00221822 [(1, 0x5), (2, 0x7)]) = some 0xFFFFFFFE := by decide
theorem test_subu_wraps : regAfter 3 (start 0x00221823 [(1, 0x80000000), (2, 0x1)]) = some 0x7FFFFFFF := by decide
theorem test_and : regAfter 3 (start 0x00221824 [(1, 0xFF00FF00), (2, 0xFF00FF0)]) = some 0xF000F00 := by decide
theorem test_or : regAfter 3 (start 0x00221825 [(1, 0xFF00FF00), (2, 0xFF00FF0)]) = some 0xFFF0FFF0 := by decide
theorem test_xor : regAfter 3 (start 0x00221826 [(1, 0xFF00FF00), (2, 0xFF00FF0)]) = some 0xF0F0F0F0 := by decide
theorem test_nor : regAfter 3 (start 0x00221827 [(1, 0xFF00FF00), (2, 0xFF00FF0)]) = some 0xF000F := by decide
theorem test_slt_signed : regAfter 3 (start 0x0022182A [(1, 0x80000000), (2, 0x7FFFFFFF)]) = some 0x1 := by decide
theorem test_slt_equal : regAfter 3 (start 0x0022182A [(1, 0x7), (2, 0x7), (3, 0x9)]) = some 0x0 := by decide
theorem test_sll : regAfter 3 (start 0x00021900 [(2, 0x80000001)]) = some 0x10 := by decide
theorem test_sll_ignores_rs : regAfter 3 (start 0x00E21900 [(2, 0x1), (7, 0xFFFFFFFF)]) = some 0x10 := by decide
theorem test_srl : regAfter 3 (start 0x00021902 [(2, 0x80000010)]) = some 0x8000001 := by decide
theorem test_sra : regAfter 3 (start 0x00021903 [(2, 0x80000010)]) = some 0xF8000001 := by decide
theorem test_sra_31 : regAfter 3 (start 0x00021FC3 [(2, 0x80000000)]) = some 0xFFFFFFFF := by decide
theorem test_addi_extends : regAfter 2 (start 0x2022FFFF [(1, 0x5)]) = some 0x4 := by decide
theorem test_addi_overflow :
    faultAfter (start 0x20228000 [(1, 0x80000000), (2, 0x55)]) = some (false, some (.overflowFault, none, none)) ∧
      regAfter 2 (start 0x20228000 [(1, 0x80000000), (2, 0x55)]) = some 0x55 := by decide
theorem test_addiu_extends : regAfter 2 (start 0x24228000 [(1, 0x0)]) = some 0xFFFF8000 := by decide
/-- S5. -/
theorem test_addiu_zero_register : regAfter 0 (start 0x24000005 []) = some 0x0 := by decide
theorem test_slti : regAfter 2 (start 0x2822FFFF [(1, 0xFFFFFFFE)]) = some 0x1 := by decide
theorem test_slti_false : regAfter 2 (start 0x2822FFFF [(1, 0x0), (2, 0x9)]) = some 0x0 := by decide
theorem test_andi : regAfter 2 (start 0x3022FFFF [(1, 0x12345678)]) = some 0x5678 := by decide
theorem test_ori : regAfter 2 (start 0x34228000 [(1, 0x10000)]) = some 0x18000 := by decide
theorem test_xori : regAfter 2 (start 0x3822FFFF [(1, 0xFFFFFFFF)]) = some 0xFFFF0000 := by decide
theorem test_lui : regAfter 2 (start 0x3CE28000 [(7, 0xFFFFFFFF)]) = some 0x80000000 := by decide

/-! ## Single steps: multiply and divide (95_test_vectors.md S3, 2.4) -/

/-- S3. -/
theorem test_mult_negative :
    hiloAfter (start 0x00220018 [(1, 0xFFFFFFFF), (2, 0x1)]) = some (0xFFFFFFFF, 0xFFFFFFFF) := by decide
theorem test_mult_minimum :
    hiloAfter (start 0x00220018 [(1, 0x80000000), (2, 0x80000000)]) = some (0x40000000, 0x0) := by decide
theorem test_multu :
    hiloAfter (start 0x00220019 [(1, 0xFFFFFFFF), (2, 0xFFFFFFFF)]) = some (0xFFFFFFFE, 0x1) := by decide
theorem test_div_truncates :
    hiloAfter (start 0x0022001A [(1, 0xFFFFFFF9), (2, 0x2)]) = some (0xFFFFFFFF, 0xFFFFFFFD) := by decide
theorem test_div_overflow :
    hiloAfter (((start 0x0022001A [(1, 0x80000000), (2, 0xFFFFFFFF)]).setHi 0x11).setLo 0x22) =
      some (0x0, 0x80000000) := by decide
theorem test_divu : hiloAfter (start 0x0022001B [(1, 0xFFFFFFF9), (2, 0x2)]) = some (0x1, 0x7FFFFFFC) := by decide
theorem test_divu_by_zero :
    hiloAfter (((start 0x0022001B [(1, 0x7), (2, 0x0)]).setHi 0x11).setLo 0x22) = some (0x11, 0x22) := by decide
theorem test_mfhi :
    regAfter 3 (((start 0x00001810 []).setHi 0xAABBCCDD).setLo 0x11223344) = some 0xAABBCCDD := by decide
theorem test_mflo :
    regAfter 3 (((start 0x00001812 []).setHi 0xAABBCCDD).setLo 0x11223344) = some 0x11223344 := by decide
theorem test_mthi :
    hiloAfter (((start 0x00200011 [(1, 0xCAFE)]).setHi 0x1).setLo 0x2) = some (0xCAFE, 0x2) := by decide
theorem test_mtlo :
    hiloAfter (((start 0x00200013 [(1, 0xCAFE)]).setHi 0x1).setLo 0x2) = some (0x1, 0xCAFE) := by decide

/-! ## Single steps: loads and stores (95_test_vectors.md S7, S8, 2.5) -/

theorem test_lw :
    regAfter 2 (withData (start 0x8C22FFFC [(1, 0x10000004)])) = some 0x1FF7F80 ∧
      regAfter 1 (withData (start 0x8C210004 [(1, 0x10000000)])) = some 0x92345678 := by decide
theorem test_lh : regAfter 2 (withData (start 0x84220006 [(1, 0x10000000)])) = some 0xFFFF9234 := by decide
theorem test_lb : regAfter 2 (withData (start 0x80220000 [(1, 0x10000000)])) = some 0xFFFFFF80 := by decide
theorem test_lbu : regAfter 2 (withData (startUnsigned 0x90220000 [(1, 0x10000000)])) = some 0x80 := by decide
theorem test_lhu : regAfter 2 (withData (startUnsigned 0x94220006 [(1, 0x10000000)])) = some 0x9234 := by decide
theorem test_lbu_absent :
    faultAfter (start 0x90220000 [(1, 0x10000000)]) = some (false, some (.decodeFault, none, none)) := by decide
theorem test_lhu_absent :
    faultAfter (start 0x94220000 [(1, 0x10000001)]) = some (false, some (.decodeFault, none, none)) := by decide
theorem test_lh_misaligned :
    faultAfter (start 0x84220001 [(1, 0x10000000)]) =
      some (false, some (.memoryFault, some .misaligned, some 0x10000001)) := by decide
theorem test_lb_out_of_range :
    faultAfter (start 0x80220000 [(1, 0x80100000)]) =
      some (false, some (.memoryFault, some .outOfRange, some 0x80100000)) := by decide
theorem test_sw :
    wordAfter 0x10000008 (withData (start 0xAC220008 [(1, 0x10000000), (2, 0xA1B2C3D4)])) = some 0xA1B2C3D4 :=
  by decide
theorem test_sh :
    wordAfter 0x10000000 (withData (start 0xA4220002 [(1, 0x10000000), (2, 0xA1B2C3D4)])) = some 0xC3D47F80 :=
  by decide
theorem test_sb :
    wordAfter 0x10000000 (withData (start 0xA0220003 [(1, 0x10000000), (2, 0xA1B2C3D4)])) = some 0xD4FF7F80 :=
  by decide
theorem test_sw_last_word : wordAfter 0x7FFFFFFC (start 0xAC22FFFC [(1, 0x80000000), (2, 0x1)]) = some 1 := by decide

/-- A store's fault records the value and changes no byte (2.5). -/
theorem test_sh_misaligned :
    seen (fun t => (t.diag.map (fun d => (d.cause, d.addr, d.value)), Memory.load t.mem 0x10000000 4))
        (step (start 0xA4220001 [(1, 0x10000000), (2, 0xA1B2C3D4)])) =
      some (some (some .misaligned, some 0x10000001, some 0xA1B2C3D4), 0) := by decide

/-- A straddle needs a region whose end is not word-aligned (2.5). -/
theorem test_lw_straddle :
    faultAfter { start 0x8C220000 [(1, 0x10000000)] with
        cfg := { Config.default with data := ⟨0x10000000, 0x10000001⟩ } } =
      some (false, some (.memoryFault, some .straddle, some 0x10000000)) := by decide

/-! ## Single steps: control flow and the system call (95_test_vectors.md 2.6, 2.7) -/

theorem test_beq_back : redirectAfter (start 0x1000FFFF []) = some (0x400004, some 0x400000) := by decide
theorem test_beq_not_taken :
    redirectAfter (start 0x10220003 [(1, 0x5), (2, 0x6)]) = some (0x400004, none) := by decide
theorem test_bne : redirectAfter (start 0x1420FFFD [(1, 0x1)]) = some (0x400004, some 0x3FFFF8) := by decide
theorem test_bne_not_taken : redirectAfter (start 0x1420FFFD [(1, 0x0)]) = some (0x400004, none) := by decide
theorem test_blez_negative :
    redirectAfter (start 0x18200002 [(1, 0x80000000)]) = some (0x400004, some 0x40000C) := by decide
theorem test_blez_one : redirectAfter (start 0x18200002 [(1, 0x1)]) = some (0x400004, none) := by decide
theorem test_bgtz : redirectAfter (start 0x1C200002 [(1, 0x1)]) = some (0x400004, some 0x40000C) := by decide
theorem test_bgtz_negative : redirectAfter (start 0x1C200002 [(1, 0xFFFFFFFF)]) = some (0x400004, none) := by decide
theorem test_j_all_ones : redirectAfter (start 0x0BFFFFFF []) = some (0x400004, some 0xFFFFFFC) := by decide
theorem test_jal : redirectAfter (start 0x0C100008 []) = some (0x400004, some 0x400020) := by decide
theorem test_jal_links : regAfter 31 (start 0x0C100008 []) = some 0x400008 := by decide
theorem test_jr : redirectAfter (start 0x03E00008 [(31, 0x400100)]) = some (0x400004, some 0x400100) := by decide
theorem test_jalr_old_31 :
    redirectAfter (start 0x03E0F809 [(31, 0x400200)]) = some (0x400004, some 0x400200) := by decide
theorem test_jalr_ignores_rd :
    seen (fun t => (t.reg 31, t.reg 5)) (step (start 0x00402809 [(2, 0x400200), (5, 0x7)])) = some (0x400008, 7) :=
  by decide
theorem test_syscall_halts :
    seen (fun t => (t.pc, t.instructionCount, t.runFlag, t.diag)) (step (start 0x03FFFFCC [(2, 0xA)])) =
      some (0x400004, 1, false, none) := by decide
theorem test_syscall_answer :
    seen (fun t => (t.reg 2, t.runFlag, t.env)) (step { start 0x0000000C [(2, 0x5)] with env := .constant (some 0x1234) }) =
      some (0x1234, true, .constant (some 0x1234)) := by decide

/-- A word that is no instruction (2.8, S4): the record, and a further step changes nothing. -/
theorem test_decode_fault :
    (after (start 0xFFFFFFFF [])).diag =
        some ⟨.decodeFault, none, 0x400000, some 0xFFFFFFFF, none, none, 0⟩ ∧
      step (after (start 0xFFFFFFFF [])) = .next (after (start 0xFFFFFFFF [])) := ⟨by decide, rfl⟩

/-- The dump of the program's word and of the zero word after it; bad bounds are refused; a fault goes to the host
(70_reset_and_hazards.md rule R216). -/
theorem test_dump :
    (start 0x00221820 []).dump 0x400000 0x400004 = .next [0x00221820, 0] ∧
      (start 0 []).dump 0x400004 0x400000 = .refused (.badDumpRange 0x400004 0x400000) ∧
      (start 0 []).dump 0x4FFFFC 0x500000 = .fault (.hostRead .outOfRange 0x500000) := ⟨rfl, rfl, rfl⟩

/-- Every memory operation keeps the canonical form; here: writing zero removes the entry. -/
theorem test_memory_canonical :
    Memory.write (Memory.write [] 5 7) 5 0 = [] ∧
      Memory.write (Memory.write [] 9 1) 5 7 = [(5, 7), (9, 1)] := by decide

/-! ## Witnesses: states that meet the hypotheses of the statements, all of them together, at the bounds of each clause -/

/-- The machine about to run `ADD $3,$1,$2` with 1 and 2. -/
def adding : State := start 0x00221820 [(1, 1), (2, 2)]

/-- The machine about to run `J 0x00400010` whose delay slot holds `J 0x00400020` (95_test_vectors.md P9). -/
def jumping : State := State.reset.loadImage [0x08100004, 0x08100008]

/-- The machine about to run `SW $2,0($1)` with `$1 = ea`. -/
def storing (ea : Word) : State := start 0xAC220000 [(1, ea), (2, 0xA1B2C3D4)]

/-- The machine with a DATA region of `n` + 1 bytes (95_test_vectors.md 2.5, the straddle). -/
def shortData (n : Word) : State :=
  { storing 0x10000000 with cfg := { Config.default with data := ⟨0x10000000, 0x10000000 + n⟩ } }

/-- The machine with LBU and LHU. -/
def unsignedLoads : State := startUnsigned 0x90220000 [(1, 0x10000000)]

/-- The machine with a TEXT of two words. -/
def smallText : State := { State.reset with cfg := { Config.default with text := ⟨0x00400000, 0x00400007⟩ } }

/-- The machine with its halt selector, and then another selector, in register 2. -/
def calling (selector : Word) (answers : List (Option Word)) : State :=
  { start 0x0000000C [(2, selector)] with envAnswers := answers }

theorem test_witness_EncodeOfDecodeIsTheWord : decode 0x03FFFFCC = .ok (.syscall 31 31 31 31) := by decide

theorem test_witness_ExactlyTheMappedWordsDecode :
    ((0 : Nat) / 2 ^ 26 = 0 ∧ decode 0x00000000 = .ok (.sll 0 0 0 0)) ∧
      decode 0xAFFFFFFF = .ok (.sw 31 31 0xFFFF) ∧ decode 0x0000002B = .error (.noFunct 0x2B) ∧
      decode 0xB0000000 = .error (.noOpcode 0x2C) := by decide

/-- The first and the last opcode of each format. -/
theorem test_witness_FormatAndFieldsByPosition :
    decodeFields 0x03FFFFFF = .rType 31 31 31 31 0x3F ∧ decodeFields 0x04000000 = .iType 1 0 0 0 ∧
      decodeFields 0x08000000 = .jType 2 0 ∧ decodeFields 0x0FFFFFFF = .jType 3 0x3FFFFFF ∧
      decodeFields 0x10000000 = .iType 4 0 0 0 ∧ decodeFields 0xFFFFFFFF = .iType 0x3F 31 31 0xFFFF := by decide

theorem test_witness_StepRunsTheDecodedInstruction :
    adding.runFlag = true ∧ accessFault adding.cfg adding.pc .word = none ∧
      decodeBytes [Memory.read adding.mem adding.pc.toNat, Memory.read adding.mem (adding.pc.toNat + 1),
        Memory.read adding.mem (adding.pc.toNat + 2), Memory.read adding.mem (adding.pc.toNat + 3)] =
        .ok (.add 1 2 3 0, []) := by decide

theorem test_witness_HaltedIsAbsorbing :
    adding.stop.runFlag = false ∧
      adding.stop.hostReset [0x00221820] = .next (adding.stop.cleared.loadImage [0x00221820]) := ⟨by decide, rfl⟩

/-- A running state whose step commits: it serves EveryCycleCommitsOrFaults, OnlyTransfersRedirect, ParametersAreFixed,
CountersAndRecordAreNeverRead and RegisterZeroReadsZeroAndDiscardsWrites too. -/
theorem test_witness_commit :
    step adding = .next (after adding) ∧ exec (.add 1 2 3 0) adding = .next (after adding) ∧
      adding.runFlag = true ∧ (after adding).instructionCount ≠ adding.instructionCount ∧
      (Instr.add 1 2 3 0).isTransfer = false ∧ ∀ n, adding.env ≠ .draws n :=
  ⟨rfl, rfl, by decide, by decide, by decide, fun _ h => nomatch h⟩

/-- A running state whose step faults. -/
theorem test_witness_fault :
    step (start 0xFFFFFFFF []) = .next (after (start 0xFFFFFFFF [])) ∧ (start 0xFFFFFFFF []).runFlag = true ∧
      (after (start 0xFFFFFFFF [])).runFlag = false := ⟨rfl, by decide, by decide⟩

theorem test_witness_FetchAndDecodeFaultsHalt :
    accessFault Config.default 0x00400002 .word = some .misaligned ∧
      accessFault Config.default 0x00500000 .word = some .outOfRange ∧
      accessFault (shortData 1).cfg 0x10000000 .word = some .straddle ∧
      (start 0xFFFFFFFF []).fetch = .ok 0xFFFFFFFF#32 ∧ decode 0xFFFFFFFF = .error (.noOpcode 0x3F) := by decide

/-- The last word, half-word and byte of TEXT, and the first beyond; the last access and the first straddle of a region
that ends off a word or half-word. -/
theorem test_witness_AccessFaultCauses :
    accessFault Config.default 0x004FFFFC .word = none ∧ accessFault Config.default 0x004FFFFD .word = some .misaligned ∧
      accessFault Config.default 0x004FFFFE .half = none ∧ accessFault Config.default 0x004FFFFF .half = some .misaligned ∧
      accessFault Config.default 0x004FFFFF .byte = none ∧ accessFault Config.default 0x00500000 .byte = some .outOfRange ∧
      accessFault Config.default 0x003FFFFC .word = some .outOfRange ∧
      accessFault Config.default 0xFFFFFFFC .word = some .outOfRange ∧
      accessFault (shortData 3).cfg 0x10000000 .word = none ∧
      accessFault (shortData 2).cfg 0x10000000 .word = some .straddle ∧
      accessFault (shortData 2).cfg 0x10000000 .half = none ∧
      accessFault (shortData 2).cfg 0x10000002 .half = some .straddle := by decide

/-- A taken transfer, and its delay slot. -/
theorem test_witness_OneDelaySlot :
    jumping.redirect = none ∧ step jumping = .next (after jumping) ∧
      (after jumping).instructionCount ≠ jumping.instructionCount ∧ (after jumping).redirect = some 0x00400010 ∧
      step (after jumping) = .next (after (after jumping)) ∧
      (after (after jumping)).instructionCount ≠ (after jumping).instructionCount :=
  ⟨by decide, rfl, by decide, by decide, rfl, by decide⟩

/-- No transfer: the same, with no redirect. -/
theorem test_witness_OneDelaySlot_none :
    adding.redirect = none ∧ step adding = .next (after adding) ∧ (after adding).redirect = none ∧
      (after adding).instructionCount ≠ adding.instructionCount ∧ step (after adding) = .next (after (after adding)) ∧
      (after (after adding)).instructionCount ≠ (after adding).instructionCount :=
  ⟨by decide, rfl, by decide, by decide, rfl, by decide⟩

theorem test_witness_TransferInDelaySlot :
    (after jumping).redirect = some 0x00400010 ∧ step (after jumping) = .next (after (after jumping)) ∧
      (after (after jumping)).instructionCount ≠ (after jumping).instructionCount ∧
      (after (after jumping)).redirect = some 0x00400020 ∧
      step (after (after jumping)) = .next (after (after (after jumping))) ∧
      (after (after (after jumping))).instructionCount ≠ (after (after jumping)).instructionCount :=
  ⟨by decide, rfl, by decide, by decide, rfl, by decide⟩

/-- A word in neither map, and LBU where the configuration has it not. -/
theorem test_witness_UnmappedWordsHalt :
    ((start 0xFFFFFFFF []).runFlag = true ∧ (start 0xFFFFFFFF []).fetch = .ok 0xFFFFFFFF#32 ∧
      ¬ ∃ i, decode 0xFFFFFFFF = .ok i ∧ i.wf (start 0xFFFFFFFF []).cfg = true) ∧
    ((start 0x90220000 []).runFlag = true ∧ (start 0x90220000 []).fetch = .ok 0x90220000#32 ∧
      ¬ ∃ i, decode 0x90220000 = .ok i ∧ i.wf (start 0x90220000 []).cfg = true) := by
  refine ⟨⟨by decide, by decide, ?_⟩, by decide, by decide, ?_⟩
  · rintro ⟨i, h, -⟩
    rw [show decode 0xFFFFFFFF = .error (.noOpcode 0x3F) by decide] at h
    cases h
  · rintro ⟨i, h, hw⟩
    rw [show decode 0x90220000 = .ok (.lbu 1 2 0) by decide] at h
    cases h
    exact absurd hw (by decide)

/-- The halt, a word that is no instruction, a fetch that faults, and an instruction that leaves a record. -/
theorem test_witness_RunFlagTransitions :
    ((calling 10 []).runFlag = true ∧ (calling 10 []).diag = none ∧ step (calling 10 []) = .next (after (calling 10 [])) ∧
      (after (calling 10 [])).runFlag = false) ∧
    ((start 0xFFFFFFFF []).diag = none ∧ step (start 0xFFFFFFFF []) = .next (after (start 0xFFFFFFFF [])) ∧
      (after (start 0xFFFFFFFF [])).runFlag = false ∧ (after (start 0xFFFFFFFF [])).diag ≠ (start 0xFFFFFFFF []).diag) ∧
    ({ State.reset with pc := 0x00400002 } : State).fetch = .error .misaligned ∧
    (∃ t, exec (.lbu 1 2 0) State.reset = .next t ∧ t.diag ≠ State.reset.diag) :=
  ⟨⟨by decide, by decide, rfl, by decide⟩, ⟨by decide, rfl, by decide, by decide⟩, by decide, _, rfl, by decide⟩

theorem test_witness_OnlyStoresChangeMemory :
    step (storing 0x10000000) = .next (after (storing 0x10000000)) ∧
      Memory.read (after (storing 0x10000000)).mem 0x10000003 ≠ Memory.read (storing 0x10000000).mem 0x10000003 :=
  ⟨rfl, by decide⟩

theorem test_witness_HiLoWrittenOnlyByTheirInstructions :
    ∃ t, exec (.mult 1 2 0 0) (start 0 [(1, 0x00010000), (2, 0x00010001)]) = .next t ∧ t.hi ≠ 0 ∧ t.lo ≠ 0 :=
  ⟨_, rfl, by decide, by decide⟩

theorem test_witness_HostOperations :
    adding.hostReset [1, 2] = .next (adding.cleared.loadImage [1, 2]) ∧
      smallText.hostReset [1, 2, 3] = .refused (.imageTooLong 3) := ⟨rfl, rfl⟩

/-- It serves EveryStepKeepsTheInvariant (with `test_witness_reset_step`) and HostOperationsKeepTheInvariant. -/
theorem test_witness_invariant : State.reset.Inv :=
  ⟨by decide, by decide, by decide, by decide, by decide, by decide⟩

theorem test_witness_reset_step : step State.reset = .next (after State.reset) := rfl

theorem test_witness_StoreThenLoadReturnsTheWord :
    accessFault Config.default ((storing 0x7FFFFFFC).effectiveAddress 1 0) .word = none := by decide

theorem test_witness_LittleEndianViews :
    ∃ t, (storing 0).memWrite 0x7FFFFFFC .word 0x11223344 = .ok t := ⟨_, rfl⟩

/-- A TEXT of the least size, at the top of the address space. -/
theorem test_witness_TextBoundary :
    { Config.default with text := ⟨0xFFFFFFFC, 0xFFFFFFFF⟩ }.wf = true := by decide

theorem test_witness_StoreIsSeenByTheNextFetch :
    (storing 0x00400004).effectiveAddress 1 0 = (storing 0x00400004).nextPc ∧
      accessFault (storing 0x00400004).cfg (storing 0x00400004).nextPc .word = none := by decide

/-- The greatest and the least sum and difference that fit, and those one past them. -/
theorem test_witness_OverflowIsTheSignedRange :
    addOverflows 0x7FFFFFFE 1 = false ∧ addOverflows 0x7FFFFFFF 1 = true ∧ addOverflows 0x80000001 0xFFFFFFFF = false ∧
      addOverflows 0x80000000 0xFFFFFFFF = true ∧ subOverflows 0x7FFFFFFE 0xFFFFFFFF = false ∧
      subOverflows 0x7FFFFFFF 0xFFFFFFFF = true ∧ subOverflows 0x80000001 1 = false ∧
      subOverflows 0x80000000 1 = true ∧ subOverflows 0 0x80000000 = true := by decide

/-- Both sides of the sum's and of the difference's upper and lower bound (AddiAndSub, OverflowFaultsHalt). -/
theorem test_witness_AddiAndSub :
    (0x7FFFFFFF : Word).toInt + (0 : Word).toInt ≤ 2 ^ 31 - 1 ∧ ¬ (0x7FFFFFFF : Word).toInt + (1 : Word).toInt ≤ 2 ^ 31 - 1 ∧
      -2 ^ 31 ≤ (0x80000000 : Word).toInt + (0 : Imm16).toInt ∧
      ¬ -2 ^ 31 ≤ (0x80000000 : Word).toInt + (0xFFFF : Imm16).toInt ∧
      -2 ^ 31 ≤ (0x80000000 : Word).toInt - (0 : Word).toInt ∧
      ¬ -2 ^ 31 ≤ (0x80000000 : Word).toInt - (1 : Word).toInt := by decide

/-- The sums of ADD on both sides of its condition, and a word of it. -/
theorem test_witness_AddSumOrOverflow :
    (0x80000000 / 2 ^ 31 = 0x80000000 / 2 ^ 31 ∧ (0x80000000 + 0xFFFFFFFF) % 2 ^ 32 / 2 ^ 31 ≠ 0x80000000 / 2 ^ 31) ∧
      ¬ (0x7FFFFFFF / 2 ^ 31 = 0 / 2 ^ 31 ∧ (0x7FFFFFFF + 0) % 2 ^ 32 / 2 ^ 31 ≠ 0x7FFFFFFF / 2 ^ 31) ∧
      (0x00221820 : Word).toNat = 1 * 2 ^ 21 + 2 * 2 ^ 16 + 3 * 2 ^ 11 + 0 * 2 ^ 6 + 0x20 := by decide

/-- The quotient that does not fit, and the same dividend with another divisor. -/
theorem test_witness_DivisionByANonZeroDivisor :
    (start 0 [(1, 0x80000000), (2, 0xFFFFFFFF)]).reg 1 = 0x80000000 ∧
      (start 0 [(1, 0x80000000), (2, 0xFFFFFFFF)]).reg 2 ≠ 0 ∧
      ((start 0 [(1, 0x80000000), (2, 0xFFFFFFFF)]).reg 2).toInt = -1 ∧
      (start 0 [(1, 0x80000000), (2, 1)]).reg 2 ≠ 0 ∧ ¬ ((start 0 [(1, 0x80000000), (2, 1)]).reg 2).toInt = -1 := by
  decide

/-- Register 3 holds zero. -/
theorem test_witness_DivisionByZero :
    adding.reg 3 = 0 ∧ (Instr.div 1 3 0 0 = .div 1 3 0 0 ∨ Instr.div 1 3 0 0 = .divu 1 3 0 0) ∧
      (Instr.divu 1 3 0 0 = .div 1 3 0 0 ∨ Instr.divu 1 3 0 0 = .divu 1 3 0 0) := by decide

/-- The last word, half-word and byte of DATA: they serve SignedLoads, StoresWriteTheirBytes and, with the parameter, UnsignedLoads. -/
theorem test_witness_SignedLoads :
    accessFault Config.default ((storing 0x7FFFFFFC).effectiveAddress 1 0) .word = none ∧
      accessFault Config.default ((storing 0x7FFFFFFC).effectiveAddress 1 2) .half = none ∧
      accessFault Config.default ((storing 0x7FFFFFFC).effectiveAddress 1 3) .byte = none := by decide

theorem test_witness_UnsignedLoads :
    unsignedLoads.cfg.hasUnsignedLoads = true ∧
      accessFault unsignedLoads.cfg (unsignedLoads.effectiveAddress 1 0) .byte = none ∧
      accessFault unsignedLoads.cfg (unsignedLoads.effectiveAddress 1 0) .half = none := by decide

theorem test_witness_UnsignedLoadsAbsent : State.reset.cfg.hasUnsignedLoads = false := by decide

/-- Each width's bad access: they serve LoadsFaultOnBadAccess and StoresFaultOnBadAccess. -/
theorem test_witness_LoadsFaultOnBadAccess :
    accessFault unsignedLoads.cfg (unsignedLoads.effectiveAddress 1 2) .word = some .misaligned ∧
      accessFault unsignedLoads.cfg (unsignedLoads.effectiveAddress 1 1) .half = some .misaligned ∧
      accessFault unsignedLoads.cfg (unsignedLoads.effectiveAddress 1 0xFFFF) .byte = some .outOfRange ∧
      accessFault (shortData 2).cfg ((shortData 2).effectiveAddress 1 0) .word = some .straddle ∧
      unsignedLoads.cfg.hasUnsignedLoads = true := by decide

/-- Both sides of the comparisons of BLEZ and BGTZ with zero, and of BEQ and BNE. -/
theorem test_witness_Branches :
    ((start 0 [(1, 0)]).reg 1 = 0 ∧ ((start 0 [(1, 0x80000000)]).reg 1).msb = true ∧
      ¬ (((start 0 [(1, 1)]).reg 1).msb = true ∨ (start 0 [(1, 1)]).reg 1 = 0)) ∧
      adding.reg 1 ≠ adding.reg 2 ∧ adding.reg 1 = adding.reg 1 := by decide

theorem test_witness_JumpAndLink :
    (0x0C000000 : Word).toNat = 3 * 2 ^ 26 + (0 : Target26).toNat ∧
      (0x0FFFFFFF : Word).toNat = 3 * 2 ^ 26 + (0x3FFFFFF : Target26).toNat := by decide

/-- The halt selector, and another with each kind of answer written out (SyscallHalts, SyscallCallsTheEnvironment). -/
theorem test_witness_Syscall :
    (calling 10 []).reg 2 = (calling 10 []).cfg.haltSelector ∧ (calling 1 []).reg 2 ≠ (calling 1 []).cfg.haltSelector ∧
      (calling 1 [none]).envAnswers = none :: [] ∧ (calling 1 [some 7]).envAnswers = some 7 :: [] := by decide

/-- Another selector with none left, for each kind of environment (SyscallCallsTheEnvironment). -/
theorem test_witness_Syscall_environments :
    ∀ e ∈ [EnvSource.constant none, .constant (some 7), .function 0, .draws 3],
      ({ calling 1 [] with env := e } : State).reg 2 ≠ (calling 1 []).cfg.haltSelector ∧
        ({ calling 1 [] with env := e } : State).envAnswers = [] ∧ ({ calling 1 [] with env := e } : State).env = e := by
  decide

/-- A function of the call answers what it gives for the selector and the snapshot, and stays the same function; a free
input is used once. Nothing here depends on what `Config.env` is. -/
theorem test_witness_Syscall_free :
    (∃ t, step { calling 1 [] with env := .function 4 } = .next t ∧ t.env = .function 4) ∧
      (∃ t, step { calling 1 [] with env := .draws 4 } = .next t ∧ t.env = .draws 5) ∧
      ({ calling 1 [] with env := .function 4 } : State).envAnswer 1 = Config.env 4 1 (calling 1 []).gprSnapshot :=
  ⟨⟨_, rfl, rfl⟩, ⟨_, rfl, rfl⟩, rfl⟩

/-- An image that fills TEXT, the empty one, and one that is a word too long. -/
theorem test_witness_ResetLoadsTheImage :
    smallText.cfg.wf = true ∧
      4 * ([] : List Word).length ≤ smallText.cfg.text.limit.toNat - smallText.cfg.text.base.toNat + 1 ∧
      4 * [1, 2].length ≤ smallText.cfg.text.limit.toNat - smallText.cfg.text.base.toNat + 1 ∧
      ¬ 4 * [1, 2, 3].length ≤ smallText.cfg.text.limit.toNat - smallText.cfg.text.base.toNat + 1 := by decide

/-- The last two words of TEXT. -/
theorem test_witness_DumpReadsTheRange :
    (0x004FFFF8 : Word).toNat + 4 * 1 < 2 ^ 32 ∧ (0x004FFFF8 : Word).toNat % 4 = 0 ∧
      ∀ k ≤ 1, accessFault Config.default (0x004FFFF8 + BitVec.ofNat 32 (4 * k)) .word = none := by decide

/-- The first bad word is the second of two, just past the text; it is the only one, the topmost word of the address space;
and bounds of each of the three bad kinds: an unaligned start, an unaligned stop, a start above the stop. -/
theorem test_witness_DumpReadsTheRange_bad :
    ((0x004FFFFC : Word).toNat + 4 * 1 < 2 ^ 32 ∧ (0x004FFFFC : Word).toNat % 4 = 0 ∧
      (∀ k < 1, accessFault Config.default (0x004FFFFC + BitVec.ofNat 32 (4 * k)) .word = none) ∧
      accessFault Config.default (0x004FFFFC + BitVec.ofNat 32 (4 * 1)) .word = some .outOfRange) ∧
    ((0xFFFFFFFC : Word).toNat + 4 * 0 < 2 ^ 32 ∧ (0xFFFFFFFC : Word).toNat % 4 = 0 ∧
      accessFault Config.default (0xFFFFFFFC + BitVec.ofNat 32 (4 * 0)) .word = some .outOfRange) ∧
    (¬ ((0x00400001 : Word).toNat % 4 = 0) ∧ ¬ ((0x00400002 : Word).toNat % 4 = 0) ∧
      ¬ ((0x00400004 : Word).toNat ≤ (0x00400000 : Word).toNat)) := ⟨by decide, by decide, by decide⟩

/-- A run that halts, one that is halted from the start, and the halted core's completion. -/
theorem test_witness_RunsCompose :
    (calling 10 []).runFor 3 = .next (after (calling 10 [])) ∧ (after (calling 10 [])).runFlag = false ∧
      adding.stop.runFlag = false := ⟨rfl, by decide, by decide⟩

/-- A branch to itself with an empty delay slot (95_test_vectors.md 2.6), `c` instructions after reset. -/
def looping (c : Word) : State := { start 0x1000FFFF [] with instructionCount := c }

/-- The loop's delay slot. -/
def loopingSlot (c : Word) : State :=
  { looping c with pc := 0x00400004, redirect := some 0x00400000, instructionCount := c + 1#32 }

theorem fetch_congr {s t : State} (hc : s.cfg = t.cfg) (hp : s.pc = t.pc) (hm : s.mem = t.mem) :
    s.fetch = t.fetch := by
  unfold State.fetch State.memRead
  rw [hc, hp, hm]

theorem looping_cycle (c : Word) : cycle (looping c) = .next (loopingSlot c) := by
  have hf : (looping c).fetch = .ok 0x1000FFFF#32 := by
    rw [fetch_congr (s := looping c) (t := looping 0) rfl rfl rfl]
    decide
  have hd : decode 0x1000FFFF#32 = .ok (.beq 0#5 0#5 0xFFFF#16) := by decide
  have hg : (start 0x1000FFFF []).gpr.set 0 0#32 = (start 0x1000FFFF []).gpr := by decide
  rw [cycle, hf]
  dsimp only
  rw [hd]
  have hb : branchTarget (looping c).pc 0xFFFF#16 = 0x00400000 := by
    show branchTarget State.reset.pc 0xFFFF#16 = _
    decide
  simp only [exec, execBeq, State.branch, State.transfer, decide_true, if_true, hb]
  simp only [State.commit, looping, loopingSlot, hg]
  rfl

theorem loopingSlot_cycle (c : Word) : cycle (loopingSlot c) = .next (looping (c + 1#32 + 1#32)) := by
  have hf : (loopingSlot c).fetch = .ok 0#32 := by
    rw [fetch_congr (s := loopingSlot c) (t := loopingSlot 0) rfl rfl rfl]
    decide
  have hd : decode 0#32 = .ok (.sll 0#5 0#5 0#5 0#5) := by decide
  have hg : (start 0x1000FFFF []).gpr.set 0 0#32 = (start 0x1000FFFF []).gpr := by decide
  rw [cycle, hf]
  dsimp only
  rw [hd]
  show Host.Outcome.next (State.commit (loopingSlot c) none) = _
  simp only [State.commit, looping, loopingSlot, hg]
  rfl

/-- It never halts: two cycles later it is where it was, but for the count. -/
theorem test_witness_RunsCompose_endless (n : Nat) (c : Word) (t : State) (h : (looping c).runFor n = .next t) :
    t.runFlag = true := by
  induction n using Nat.twoStepInduction generalizing c with
  | zero => cases h; rfl
  | one =>
    rw [State.runFor, looping_cycle] at h
    cases h; rfl
  | more n ih _ =>
    rw [State.runFor, looping_cycle] at h
    have h' : (loopingSlot c).runFor (n + 1) = .next t := h
    rw [State.runFor, loopingSlot_cycle] at h'
    exact ih _ h'


end Sys2Proof.Tests
end

section
/-! SUPPORT. What a step can do, said once for a step that answers a state, and what a configuration's absent
instructions do. -/

namespace Sys2Proof.Machine

/-- The ways an instruction's cycle ends, for one that answers `t`. -/
theorem ExecEnds.of_exec {i : Instr} {s t : State} (h : exec i s = .next t) : ExecEnds i s (.next t) :=
  h ▸ exec_ends i s

/-- Everything a step that answers `t` can have done: nothing while HALTED; otherwise the fetch faulted, the word was no
instruction, or the decoded instruction ended its cycle in `t` (40_cycle.md rules R70, R72 and R78). -/
theorem step_cases {s t : State} (h : step s = .next t) :
    (s.runFlag = false ∧ t = s) ∨
    (s.runFlag = true ∧
      ((∃ c, s.fetch = .error c ∧ t = s.takeFault .memoryFault (some c) none (some s.pc) none) ∨
       (∃ w e, s.fetch = .ok w ∧ decode w = .error e ∧ t = s.takeFault .decodeFault none (some w) none none) ∨
       (∃ w i, s.fetch = .ok w ∧ decode w = .ok i ∧ ExecEnds i s (.next t)))) := by
  cases hr : s.runFlag with
  | false =>
    rw [step_halted hr] at h
    cases h
    exact .inl ⟨rfl, rfl⟩
  | true =>
    refine .inr ⟨rfl, ?_⟩
    rcases step_running hr with ⟨c, hf, hs⟩ | ⟨w, e, hf, hd, hs⟩ | ⟨w, i, hf, hd, hs⟩ <;> rw [hs] at h
    · cases h
      exact .inl ⟨c, hf, rfl⟩
    · cases h
      exact .inr (.inl ⟨w, e, hf, hd, rfl⟩)
    · exact .inr (.inr ⟨w, i, hf, hd, .of_exec h⟩)

/-- LBU and LHU are the only instructions a configuration can lack, and without the parameter their words raise
DecodeFault (43_loadstore.md rules R138 and R139). -/
theorem exec_eq_decodeFault_of_not_wf {i : Instr} {s : State} (h : i.wf s.cfg = false) :
    exec i s = s.decodeFault (encode i) := by
  cases i with
  | lbu rs rt imm =>
    have habsent : s.cfg.hasUnsignedLoads = false := h
    simp [exec, execLbu, habsent]
  | lhu rs rt imm =>
    have habsent : s.cfg.hasUnsignedLoads = false := h
    simp [exec, execLhu, habsent]
  | _ => nomatch h

end Sys2Proof.Machine
end

section
/-! PROOFS. The invariant of the machine: what each end of a cycle needs in order to keep it. -/

namespace Sys2Proof.Machine

/-- A running core inside the invariant holds no record (60_exceptions.md rule R186). -/
theorem State.Inv.diag_eq_none {s : State} (h : s.Inv) (hr : s.runFlag = true) : s.diag = none := by
  by_contra hd
  exact absurd (h.halted hd) (by simp [hr])

/-- A fault with a well-shaped record keeps the invariant: the record is of the state's own address and count. -/
theorem State.Inv.takeFault {s : State} (h : s.Inv) {k : FaultKind} {c : Option MemCause} {w a v : Option Word}
    (shaped : (DiagRecord.mk k c s.pc w a v s.instructionCount).shaped = true) : (s.takeFault k c w a v).Inv where
  cfg := h.cfg
  memory := h.memory
  inside := h.inside
  zero := h.zero
  halted := fun _ => rfl
  record := by simp [shaped]

/-- The commit of a `next` buffer keeps the invariant where its memory does: a running core has no record that the new
address and count could contradict. -/
theorem State.Inv.commit {s n : State} (h : s.Inv) (hr : s.runFlag = true) (keeps : Keeps s n)
    (memory : Memory.wf n.mem = true) (inside : n.mem.all (fun c => mapped s.cfg c.1) = true) (out : Option Word) :
    (n.commit out).Inv := by
  have hdiag : (n.commit out).diag = none := keeps.diag.trans (h.diag_eq_none hr)
  exact {
    cfg := by rw [State.commit_cfg, keeps.cfg]; exact h.cfg
    memory := memory
    inside := by rw [State.commit_cfg, keeps.cfg]; exact inside
    zero := by simp
    halted := fun hd => absurd hdiag hd
    record := by rw [hdiag]; rfl }

/-- Stopping the core keeps the invariant. -/
theorem State.Inv.stop {s : State} (h : s.Inv) : s.stop.Inv :=
  { h with halted := fun _ => rfl }

/-- A store within one region lists nothing outside the regions (20_memory.md rules R31 and R33). -/
theorem Memory.inside_store {c : Config} {m : Memory} {a n : Nat} (hm : m.all (fun e => mapped c e.1) = true)
    (ha : contained c a n = true) (v : Word) : (Memory.store m a v n).all (fun e => mapped c e.1) = true := by
  rw [List.all_eq_true] at hm ⊢
  intro e he
  rcases Memory.mem_store he with ⟨hlo, hhi⟩ | hold
  · have hk := mapped_of_contained ha (k := e.1 - a) (by omega)
    rwa [Nat.add_sub_cancel' hlo] at hk
  · exact hm e hold

/-- However an instruction ends its cycle on a running core, it keeps the invariant. -/
theorem ExecEnds.keeps_inv {i : Instr} {s t : State} (e : ExecEnds i s (.next t)) (h : s.Inv) (hr : s.runFlag = true) :
    t.Inv := by
  cases e with
  | fault k c w a v shaped => exact h.takeFault shaped
  | halt _ _ => exact (h.commit hr (Keeps.refl s) h.memory h.inside none).stop
  | commit n out keeps _ _ _ memory =>
    rcases memory with hmem | ⟨rs, imm, width, v, _, hok, hmem⟩
    · exact h.commit hr keeps (hmem ▸ h.memory) (hmem ▸ h.inside) out
    · obtain ⟨-, hcontained⟩ := (accessFault_eq_none _ _ _).1 hok
      exact h.commit hr keeps (hmem ▸ Memory.wf_store h.memory _ v _)
        (hmem ▸ Memory.inside_store h.inside hcontained v) out

/-- Settles O22, by the ways a step can end: a halted core stays, a fault leaves a well-shaped record, an instruction's
end keeps the invariant. -/
theorem everyStepKeepsTheInvariant : Obligations.EveryStepKeepsTheInvariant := by
  intro s t h hstep
  rcases step_cases hstep with ⟨-, rfl⟩ | ⟨hr, ⟨c, -, rfl⟩ | ⟨w, e, -, -, rfl⟩ | ⟨w, i, -, -, hends⟩⟩
  · exact h
  · exact h.takeFault (by simp [DiagRecord.shaped])
  · exact h.takeFault rfl
  · exact hends.keeps_inv h hr

/-- Settles O23: the default parameters are well-formed, memory is empty and there is no record. -/
theorem resetMeetsTheInvariant : Obligations.ResetMeetsTheInvariant where
  cfg := by decide
  memory := rfl
  inside := rfl
  zero := rfl
  halted := fun hd => absurd rfl hd
  record := rfl

end Sys2Proof.Machine
end

section
/-! PROOFS. The run flag (10_state.md rule R19), HI and LO (rule R15), register 0 (rule R12) and the state after reset
(rule R26). -/

namespace Sys2Proof.Machine

/-- An instruction that stops a running core takes a fault, or is the halting SYSCALL. -/
theorem ExecEnds.fault_or_halt {i : Instr} {s t : State} (e : ExecEnds i s (.next t)) (hr : s.runFlag = true)
    (ht : t.runFlag = false) :
    (∃ d, t.diag = some d) ∨ (i.isSyscall = true ∧ s.reg 2#5 = s.cfg.haltSelector) := by
  cases e with
  | fault k c w a v _ => exact .inl ⟨_, rfl⟩
  | commit n out keeps _ _ _ _ =>
    have hrun : n.runFlag = true := keeps.runFlag.trans hr
    exact absurd ht (by simp [hrun])
  | halt isSyscall selector => exact .inr ⟨isSyscall, selector⟩

/-- An instruction that leaves a new record halts the core. -/
theorem ExecEnds.halted_of_new_record {i : Instr} {s t : State} (e : ExecEnds i s (.next t)) (hd : t.diag ≠ s.diag) :
    t.runFlag = false := by
  cases e with
  | fault k c w a v _ => rfl
  | commit n out keeps _ _ _ _ => exact absurd keeps.diag hd
  | halt _ _ => rfl

/-- What stops a running core in a cycle: a fault, which leaves its record, or the halting SYSCALL. -/
theorem step_fault_or_halt {s t : State} (hr : s.runFlag = true) (hstep : step s = .next t) (ht : t.runFlag = false) :
    (∃ d, t.diag = some d) ∨
    (∃ w i, s.fetch = .ok w ∧ decode w = .ok i ∧ i.isSyscall = true ∧ s.reg 2#5 = s.cfg.haltSelector) := by
  rcases step_cases hstep with ⟨hr', -⟩ | ⟨-, ⟨c, -, rfl⟩ | ⟨w, e, -, -, rfl⟩ | ⟨w, i, hf, hd, hends⟩⟩
  · exact absurd hr (by simp [hr'])
  · exact .inl ⟨_, rfl⟩
  · exact .inl ⟨_, rfl⟩
  · rcases hends.fault_or_halt hr ht with hfault | ⟨hsys, hsel⟩
    · exact .inl hfault
    · exact .inr ⟨w, i, hf, hd, hsys, hsel⟩

/-- A step that leaves a new record halts the core. -/
theorem step_halted_of_new_record {s t : State} (hstep : step s = .next t) (hd : t.diag ≠ s.diag) :
    t.runFlag = false := by
  rcases step_cases hstep with ⟨hr, rfl⟩ | ⟨-, ⟨c, -, rfl⟩ | ⟨w, e, -, -, rfl⟩ | ⟨w, i, -, -, hends⟩⟩
  · exact hr
  · rfl
  · rfl
  · exact hends.halted_of_new_record hd

/-- The halting SYSCALL stops the core (45_system.md rule R171). -/
theorem execSyscall_of_halt {s : State} (h : s.reg 2#5 = s.cfg.haltSelector) :
    execSyscall s = .next (s.commit none).stop := if_pos h

/-- A word that is no instruction of the configuration leaves a halted core. -/
theorem step_halted_of_no_instruction {s : State} {w : Word} (hf : s.fetch = .ok w)
    (hw : ¬ ∃ i, decode w = .ok i ∧ i.wf s.cfg = true) : ∃ t, step s = .next t ∧ t.runFlag = false := by
  cases hr : s.runFlag with
  | false => exact ⟨s, step_halted hr, hr⟩
  | true =>
    rcases step_running hr with ⟨c, -, hs⟩ | ⟨w', e, -, -, hs⟩ | ⟨w', i, hf', hd, hs⟩
    · exact ⟨_, hs, rfl⟩
    · exact ⟨_, hs, rfl⟩
    · obtain rfl : w = w' := Except.ok.inj (hf.symm.trans hf')
      have habsent : i.wf s.cfg = false := by
        by_contra hwf
        exact hw ⟨i, hd, by simpa using hwf⟩
      exact ⟨_, hs.trans (exec_eq_decodeFault_of_not_wf habsent), rfl⟩

/-- A fetch that faults leaves a halted core. -/
theorem step_halted_of_fetch_error {s : State} {c : MemCause} (hf : s.fetch = .error c) :
    ∃ t, step s = .next t ∧ t.runFlag = false := by
  cases hr : s.runFlag with
  | false => exact ⟨s, step_halted hr, hr⟩
  | true =>
    rcases step_running hr with ⟨c', -, hs⟩ | ⟨w, e, hf', -, -⟩ | ⟨w, i, hf', -, -⟩
    · exact ⟨_, hs, rfl⟩
    · cases hf.symm.trans hf'
    · cases hf.symm.trans hf'

/-- The host's reset, where it answers, leaves the core running. -/
theorem State.hostReset_runFlag {s t : State} {image : List Word} (h : s.hostReset image = .next t) :
    t.runFlag = true := by
  unfold State.hostReset at h
  split at h
  · cases h
    rfl
  · cases h

theorem FaultKind.exhaustive (k : FaultKind) : k = .decodeFault ∨ k = .memoryFault ∨ k = .overflowFault := by
  cases k <;> simp

/-- Settles O17, clause by clause, from the ways an instruction and a step can end. -/
theorem runFlagTransitions : Obligations.RunFlagTransitions := by
  refine ⟨fun s t hr _ hstep ht => ?_, fun s rs rt rd sh hsel => ⟨_, execSyscall_of_halt hsel, rfl⟩,
    fun s t hstep hd => step_halted_of_new_record hstep hd, fun i s t hexec hd => ?_,
    fun s w hf hw => step_halted_of_no_instruction hf hw, fun s c hf => step_halted_of_fetch_error hf,
    fun s hr => step_halted hr, fun s => s.stop_runFlag, fun s r v => ⟨rfl, rfl, rfl⟩,
    fun s t image h => State.hostReset_runFlag h⟩
  · exact (step_fault_or_halt hr hstep ht).imp_left fun ⟨d, hd⟩ => ⟨d, hd, d.kind.exhaustive⟩
  · exact (ExecEnds.of_exec hexec).halted_of_new_record hd

/-- Settles O19: a fault and the halting SYSCALL keep HI and LO, and a commit writes them only for
their instructions. -/
theorem hiLoWrittenOnlyByTheirInstructions : Obligations.HiLoWrittenOnlyByTheirInstructions := by
  intro i s t hexec
  cases ExecEnds.of_exec hexec with
  | fault k c w a v _ => exact ⟨absurd rfl, absurd rfl⟩
  | commit n out _ _ hi lo _ => exact ⟨hi, lo⟩
  | halt _ _ => exact ⟨absurd rfl, absurd rfl⟩

/-- Settles O25, from the law of a register read after a register write. -/
theorem registerZeroReadsZeroAndDiscardsWrites : Obligations.RegisterZeroReadsZeroAndDiscardsWrites := by
  intro s v r
  have hdiscard : (s.setReg 0#5 v).reg r = s.reg r := by simp [State.reg_setReg]
  exact ⟨s.reg_zero, hdiscard, hdiscard, fun t _ => t.reg_zero, fun hr => by simp [State.reg_setReg, hr]⟩

/-- A register of an array of zeros reads as zero. -/
theorem gprRead_replicate_zero (r : Reg) : gprRead (Vector.replicate 32 0#32) r = 0#32 := by
  simp [gprRead]

/-- Settles O26. -/
theorem resetState : Obligations.ResetState :=
  ⟨rfl, gprRead_replicate_zero, rfl, rfl, rfl, Memory.read_nil, rfl, rfl, rfl, rfl⟩

end Sys2Proof.Machine
end

section
/-! PROOFS. No instruction reads the counter, the program size, the record or what the environment was told: a step
commutes, up to these four fields, with erasing them. -/

namespace Sys2Proof.Machine

/-- The state with the fields that no instruction reads erased: the counter, the program size, the record, and what the
environment was told (10_state.md rules R20, R21 and R22; log 6). -/
def State.eraseUnread (s : State) : State :=
  { s with instructionCount := 0#32, programSizeWords := 0#32, diag := none, envCalls := [] }

/-- An outcome with the same fields of its state erased. -/
def eraseOutcome : Outcome → Outcome
  | .next t => .next t.eraseUnread
  | .fault f => .fault f
  | .refused r => .refused r

/-- Only a next state erases to a next state. -/
theorem eq_next_of_eraseOutcome {o : Outcome} {u : State} (h : eraseOutcome o = .next u) :
    ∃ t, o = .next t ∧ t.eraseUnread = u := by
  cases o with
  | next t => exact ⟨t, rfl, Host.Outcome.next.inj h⟩
  | fault f => cases h
  | refused r => cases h

section
variable (s : State)

@[simp] theorem State.eraseUnread_cfg : s.eraseUnread.cfg = s.cfg := rfl
@[simp] theorem State.eraseUnread_runFlag : s.eraseUnread.runFlag = s.runFlag := rfl
@[simp] theorem State.eraseUnread_reg (r : Reg) : s.eraseUnread.reg r = s.reg r := rfl
@[simp] theorem State.eraseUnread_memRead (ea : Word) (width : Width) :
    s.eraseUnread.memRead ea width = s.memRead ea width := rfl
@[simp] theorem State.eraseUnread_fetch : s.eraseUnread.fetch = s.fetch := rfl

theorem State.addChecked_eraseUnread (w : Word) (d : Reg) (a b : Word) :
    eraseOutcome (s.eraseUnread.addChecked w d a b) = eraseOutcome (s.addChecked w d a b) := by
  unfold State.addChecked
  split <;> rfl

theorem State.subChecked_eraseUnread (w : Word) (d : Reg) (a b : Word) :
    eraseOutcome (s.eraseUnread.subChecked w d a b) = eraseOutcome (s.subChecked w d a b) := by
  unfold State.subChecked
  split <;> rfl

theorem State.load_eraseUnread (w ea : Word) (width : Width) (ext : Word → Word) (rt : Reg) :
    eraseOutcome (s.eraseUnread.load w ea width ext rt) = eraseOutcome (s.load w ea width ext rt) := by
  unfold State.load
  rw [State.eraseUnread_memRead]
  cases s.memRead ea width <;> rfl

theorem State.store_eraseUnread (w ea : Word) (width : Width) (v : Word) :
    eraseOutcome (s.eraseUnread.store w ea width v) = eraseOutcome (s.store w ea width v) := by
  unfold State.store State.memWrite
  rw [State.eraseUnread_cfg]
  cases accessFault s.cfg ea width <;> rfl

theorem State.divideSigned_eraseUnread (n d : Int) :
    eraseOutcome (s.eraseUnread.divideSigned n d) = eraseOutcome (s.divideSigned n d) := by
  unfold State.divideSigned
  split <;> rfl

theorem State.divideUnsigned_eraseUnread (n d : Nat) :
    eraseOutcome (s.eraseUnread.divideUnsigned n d) = eraseOutcome (s.divideUnsigned n d) := by
  unfold State.divideUnsigned
  split <;> rfl

theorem execLbu_eraseUnread (rs rt : Reg) (imm : Imm16) :
    eraseOutcome (execLbu rs rt imm s.eraseUnread) = eraseOutcome (execLbu rs rt imm s) := by
  unfold execLbu
  rw [State.eraseUnread_cfg]
  split
  · exact s.load_eraseUnread _ _ _ _ _
  · rfl

theorem execLhu_eraseUnread (rs rt : Reg) (imm : Imm16) :
    eraseOutcome (execLhu rs rt imm s.eraseUnread) = eraseOutcome (execLhu rs rt imm s) := by
  unfold execLhu
  rw [State.eraseUnread_cfg]
  split
  · exact s.load_eraseUnread _ _ _ _ _
  · rfl

theorem execSyscall_eraseUnread : eraseOutcome (execSyscall s.eraseUnread) = eraseOutcome (execSyscall s) := by
  unfold execSyscall
  rw [State.eraseUnread_cfg, State.eraseUnread_reg]
  split <;> rfl

/-- No instruction reads an erased field. -/
theorem exec_eraseUnread (i : Instr) : eraseOutcome (exec i s.eraseUnread) = eraseOutcome (exec i s) := by
  cases i with
  | add rs rt rd sh => exact s.addChecked_eraseUnread _ _ _ _
  | addi rs rt imm => exact s.addChecked_eraseUnread _ _ _ _
  | sub rs rt rd sh => exact s.subChecked_eraseUnread _ _ _ _
  | div rs rt rd sh => exact s.divideSigned_eraseUnread _ _
  | divu rs rt rd sh => exact s.divideUnsigned_eraseUnread _ _
  | lb rs rt imm => exact s.load_eraseUnread _ _ _ _ _
  | lh rs rt imm => exact s.load_eraseUnread _ _ _ _ _
  | lw rs rt imm => exact s.load_eraseUnread _ _ _ _ _
  | lbu rs rt imm => exact execLbu_eraseUnread s rs rt imm
  | lhu rs rt imm => exact execLhu_eraseUnread s rs rt imm
  | sb rs rt imm => exact s.store_eraseUnread _ _ _ _
  | sh rs rt imm => exact s.store_eraseUnread _ _ _ _
  | sw rs rt imm => exact s.store_eraseUnread _ _ _ _
  | syscall rs rt rd sh => exact execSyscall_eraseUnread s
  | _ => rfl

/-- Fetch and decode read no erased field either, so no cycle does. -/
theorem cycle_eraseUnread : eraseOutcome (cycle s.eraseUnread) = eraseOutcome (cycle s) := by
  unfold cycle
  rw [State.eraseUnread_fetch]
  cases s.fetch with
  | error c => rfl
  | ok w =>
    dsimp only
    cases decode w with
    | error e => rfl
    | ok i => exact exec_eraseUnread s i

theorem step_eraseUnread : eraseOutcome (step s.eraseUnread) = eraseOutcome (step s) := by
  unfold step
  rw [State.eraseUnread_runFlag]
  split
  · exact cycle_eraseUnread s
  · rfl

end

/-- States that differ in the erased fields only take steps that differ in the erased fields only. -/
theorem eraseOutcome_step_eq_of_eraseUnread_eq {s s' : State} (h : s'.eraseUnread = s.eraseUnread) :
    eraseOutcome (step s') = eraseOutcome (step s) := calc
  eraseOutcome (step s') = eraseOutcome (step s'.eraseUnread) := (step_eraseUnread s').symm
  _ = eraseOutcome (step s.eraseUnread) := by rw [h]
  _ = eraseOutcome (step s) := step_eraseUnread s

/-- Settles O21: the two machines erase to the same state, so their steps erase to the same outcome, and every field
that the statement compares is one that erasing keeps. -/
theorem countersAndRecordAreNeverRead : Obligations.CountersAndRecordAreNeverRead := by
  intro s t n p d cs hstep
  have hsame := (eraseOutcome_step_eq_of_eraseUnread_eq (s := s)
    (s' := { s with instructionCount := n, programSizeWords := p, diag := d, envCalls := cs }) rfl).trans
    (congrArg eraseOutcome hstep)
  obtain ⟨t', ht', herased⟩ := eq_next_of_eraseOutcome hsame
  have hfield {α : Type} (f : State → α) : f t'.eraseUnread = f t.eraseUnread := congrArg f herased
  exact ⟨t', ht', hfield State.pc, hfield State.gpr, hfield State.hi, hfield State.lo, hfield State.redirect,
    hfield State.mem, hfield State.runFlag, hfield State.env, hfield State.envAnswers, hfield State.cfg⟩

end Sys2Proof.Machine
end

section
/-! PROOFS. What is wrong with an access, region by region (20_memory.md rules R33 to R39). -/

namespace Sys2Proof.Machine

theorem widthBytes_pos (w : Width) : 0 < widthBytes w := by cases w <;> decide

/-- An address is mapped exactly when one of the regions holds it (20_memory.md rules R30 and R31). -/
theorem mapped_iff {c : Config} {a : Nat} :
    mapped c a = true ↔ ∃ r ∈ regionsOf c, r.base.toNat ≤ a ∧ a ≤ r.limit.toNat := by
  simp [mapped, regionHolds, List.any_eq_true]

/-- An access of at least a byte is contained exactly when one region holds its first and its last byte
(20_memory.md rule R33). -/
theorem contained_iff {c : Config} {a n : Nat} (hn : 0 < n) :
    contained c a n = true ↔ ∃ r ∈ regionsOf c, r.base.toNat ≤ a ∧ a + n - 1 ≤ r.limit.toNat := by
  simp only [contained, regionHolds, List.any_eq_true, Bool.and_eq_true, decide_eq_true_eq]
  refine exists_congr fun r => and_congr_right fun _ => ⟨fun h => ⟨h.1.1, h.2.2⟩, fun ⟨hbase, hlimit⟩ => ?_⟩
  omega

/-- A part of a contained access is contained. -/
theorem contained_part {c : Config} {a n k m : Nat} (h : contained c a n = true) (hm : 0 < m) (hk : k + m ≤ n) :
    contained c (a + k) m = true := by
  obtain ⟨r, hr, hbase, hlimit⟩ := (contained_iff (by omega)).1 h
  exact (contained_iff hm).2 ⟨r, hr, by omega, by omega⟩

theorem accessFault_of_misaligned {c : Config} {addr : Word} {w : Width} (h : addr.toNat % widthBytes w ≠ 0) :
    accessFault c addr w = some .misaligned := if_pos h

theorem accessFault_of_not_mapped {c : Config} {addr : Word} {w : Width} (haligned : addr.toNat % widthBytes w = 0)
    (h : mapped c addr.toNat ≠ true) : accessFault c addr w = some .outOfRange := by
  have hcontained : contained c addr.toNat (widthBytes w) ≠ true := fun hc =>
    h (mapped_of_contained hc (widthBytes_pos w))
  simp [accessFault, haligned, hcontained, h]

theorem accessFault_of_mapped_not_contained {c : Config} {addr : Word} {w : Width}
    (haligned : addr.toNat % widthBytes w = 0) (hmapped : mapped c addr.toNat = true)
    (h : contained c addr.toNat (widthBytes w) ≠ true) : accessFault c addr w = some .straddle := by
  simp [accessFault, haligned, hmapped, h]

/-- An aligned access whose first and last byte one region holds has no fault (20_memory.md rule R33). -/
theorem accessFault_eq_none_of_region {c : Config} {addr : Word} {w : Width} {r : Region} (hr : r ∈ regionsOf c)
    (haligned : addr.toNat % widthBytes w = 0) (hbase : r.base.toNat ≤ addr.toNat)
    (hlimit : addr.toNat + widthBytes w - 1 ≤ r.limit.toNat) : accessFault c addr w = none :=
  (accessFault_eq_none c addr w).2 ⟨haligned, (contained_iff (widthBytes_pos w)).2 ⟨r, hr, hbase, hlimit⟩⟩

theorem State.memWrite_ok {s : State} {addr : Word} {w : Width} (h : accessFault s.cfg addr w = none) (v : Word) :
    s.memWrite addr w v = .ok { s with mem := Memory.store s.mem addr.toNat v (widthBytes w) } := by
  simp [State.memWrite, h]

theorem State.memWrite_error {s : State} {addr : Word} {w : Width} {c : MemCause}
    (h : accessFault s.cfg addr w = some c) (v : Word) : s.memWrite addr w v = .error c := by
  simp [State.memWrite, h]

/-- A `MemWrite` that answers had a good access, and stored the bytes (20_memory.md rule R37). -/
theorem State.eq_of_memWrite_ok {s t : State} {addr v : Word} {w : Width} (h : s.memWrite addr w v = .ok t) :
    accessFault s.cfg addr w = none ∧ t = { s with mem := Memory.store s.mem addr.toNat v (widthBytes w) } := by
  cases hf : accessFault s.cfg addr w with
  | some c => cases (State.memWrite_error hf v).symm.trans h
  | none => exact ⟨rfl, (Except.ok.inj ((State.memWrite_ok hf v).symm.trans h)).symm⟩

/-- Settles O13, cause by cause; the model tests containment before the mapping of the first byte, and a contained access
has its first byte mapped. -/
theorem accessFaultCauses : Obligations.AccessFaultCauses := by
  intro s addr w v a n regions cause
  have hmapped : mapped s.cfg a = true ↔ _ := mapped_iff
  have hcontained : contained s.cfg a n = true ↔ _ := contained_iff (widthBytes_pos w)
  have hcause : accessFault s.cfg addr w = cause := by
    unfold cause
    split_ifs with hmisaligned hfirst hboth
    · exact accessFault_of_misaligned hmisaligned
    · exact (accessFault_eq_none _ _ _).2 ⟨not_not.1 hmisaligned, hcontained.2 hboth⟩
    · exact accessFault_of_mapped_not_contained (not_not.1 hmisaligned) (hmapped.2 hfirst) (mt hcontained.1 hboth)
    · exact accessFault_of_not_mapped (not_not.1 hmisaligned) (mt hmapped.1 hfirst)
  rw [← hcause]
  exact ⟨rfl, fun c hc => ⟨State.memRead_error hc, State.memWrite_error hc v⟩,
    fun hok => ⟨⟨_, State.memRead_ok hok⟩, ⟨_, State.memWrite_ok hok v⟩⟩⟩

/-- What 00_scope.md rule R5 says of TEXT: it ends on the last byte of a word, and holds one. -/
theorem Config.text_of_wf {c : Config} (h : c.wf = true) :
    c.text.limit.toNat % 4 = 3 ∧ c.text.base.toNat + 3 ≤ c.text.limit.toNat := by
  simp only [Config.wf, Config.textEndAligned, Config.textHoldsAWord, Bool.and_eq_true, and_assoc, beq_iff_eq,
    decide_eq_true_eq] at h
  obtain ⟨-, hend, hword, -⟩ := h
  exact ⟨hend, hword⟩

/-- Settles O29: the word at `TEXT_END - 3` is the last of TEXT, and `TEXT_END - 2` is no multiple of 4. -/
theorem textBoundary : Obligations.TextBoundary := by
  intro s v hwf last
  obtain ⟨hend, hword⟩ := Config.text_of_wf hwf
  have htext : s.cfg.text ∈ regionsOf s.cfg := List.mem_cons_self
  have hlast3 : (last - 3#32).toNat = s.cfg.text.limit.toNat - 3 :=
    BitVec.toNat_sub_of_le (show 3 ≤ s.cfg.text.limit.toNat by omega)
  have hlast2 : (last - 2#32).toNat = s.cfg.text.limit.toNat - 2 :=
    BitVec.toNat_sub_of_le (show 2 ≤ s.cfg.text.limit.toNat by omega)
  have hlastWord : accessFault s.cfg (last - 3#32) .word = none :=
    accessFault_eq_none_of_region htext (by simp only [hlast3, widthBytes]; omega) (by omega)
      (by simp only [hlast3, widthBytes]; omega)
  have hpast : accessFault s.cfg (last - 2#32) .word = some .misaligned :=
    accessFault_of_misaligned (by simp only [hlast2, widthBytes]; omega)
  have hlastByte : accessFault s.cfg last .byte = none :=
    accessFault_eq_none_of_region htext (Nat.mod_one _) (by unfold last; omega) le_rfl
  exact ⟨⟨_, State.memRead_ok hlastWord⟩, ⟨_, State.memWrite_ok hlastWord v⟩, State.memRead_error hpast,
    State.memWrite_error hpast v, ⟨_, State.memRead_ok hlastByte⟩⟩

end Sys2Proof.Machine
end

section
/-! PROOFS. Memory as bytes: the views of a stored word, and what the stores of a program leave (20_memory.md rules R34,
R41 and R46). -/

namespace Sys2Proof.Machine

/-- An aligned access within the bytes of a good word access is good: an aligned word does not wrap. -/
theorem accessFault_part_of_word {c : Config} {a : Word} {w : Width} {k : Nat} (h : accessFault c a .word = none)
    (haligned : k % widthBytes w = 0) (hk : k + widthBytes w ≤ 4) :
    (a + BitVec.ofNat 32 k).toNat = a.toNat + k ∧ accessFault c (a + BitVec.ofNat 32 k) w = none := by
  obtain ⟨hword, hcontained⟩ := (accessFault_eq_none _ _ _).1 h
  have hpos := widthBytes_pos w
  have hdvd : widthBytes w ∣ 4 := by cases w <;> decide
  have haddr : (a + BitVec.ofNat 32 k).toNat = a.toNat + k := by
    simp only [widthBytes] at hword
    simp only [BitVec.toNat_add, BitVec.toNat_ofNat]
    omega
  refine ⟨haddr, (accessFault_eq_none _ _ _).2 ?_⟩
  rw [haddr]
  exact ⟨Nat.mod_eq_zero_of_dvd
    ((hdvd.trans (Nat.dvd_of_mod_eq_zero hword)).add (Nat.dvd_of_mod_eq_zero haligned)),
    contained_part hcontained hpos hk⟩

/-- A load within the bytes just stored gives that slice of the stored value (20_memory.md rule R34). -/
theorem Memory.load_store_within (m : Memory) (a : Nat) (v : Word) {n k j : Nat} (h : k + j ≤ n) :
    Memory.load (Memory.store m a v n) (a + k) j = ((v >>> (8 * k)).setWidth (8 * j)).setWidth 32 := by
  apply BitVec.eq_of_getLsbD_eq
  intro i hi
  rw [Memory.getLsbD_load]
  by_cases hij : i < 8 * j
  · rw [Memory.read_store, if_pos (by omega), show a + k + i / 8 - a = k + i / 8 by omega]
    simp [hi, hij, show i % 8 < 8 by omega, show 8 * (k + i / 8) + i % 8 = 8 * k + i by omega]
  · simp [hij]

/-- A read within a word just written gives its slice. -/
theorem State.memRead_of_memWrite_word {s t : State} {a v b slice : Word} {w : Width} {k : Nat}
    (h : s.memWrite a .word v = .ok t) (hb : b = a + BitVec.ofNat 32 k) (haligned : k % widthBytes w = 0)
    (hk : k + widthBytes w ≤ 4) (hslice : ((v >>> (8 * k)).setWidth (8 * widthBytes w)).setWidth 32 = slice) :
    t.memRead b w = .ok slice := by
  obtain ⟨hok, ht⟩ := State.eq_of_memWrite_ok h
  obtain ⟨haddr, hpart⟩ := accessFault_part_of_word hok haligned hk
  have hok' : accessFault t.cfg b w = none := by rwa [ht, hb]
  rw [State.memRead_ok hok', ht, hb, haddr, ← hslice]
  exact congrArg Except.ok (Memory.load_store_within s.mem a.toNat v hk)

/-- The low `n` bits of a word, as a mask. -/
theorem setWidth_setWidth_eq_and (x : Word) (n : Nat) :
    (x.setWidth n).setWidth 32 = x &&& BitVec.ofNat 32 (2 ^ n - 1) := by
  apply BitVec.eq_of_getLsbD_eq
  intro i hi
  simp only [BitVec.getLsbD_setWidth, BitVec.getLsbD_and, BitVec.getLsbD_ofNat, Nat.testBit_two_pow_sub_one, hi,
    decide_true, Bool.true_and, Bool.and_comm]

/-- The top bits of a word, shifted down, are all that the shift leaves. -/
theorem setWidth_shiftRight_of_top (x : Word) {k j : Nat} (h : 32 ≤ k + j) :
    ((x >>> k).setWidth j).setWidth 32 = x >>> k := by
  apply BitVec.eq_of_getLsbD_eq
  intro i hi
  simp only [BitVec.getLsbD_setWidth, BitVec.getLsbD_ushiftRight, hi, decide_true, Bool.true_and]
  by_cases hij : i < j
  · simp [hij]
  · simp [hij, BitVec.getLsbD_of_ge x (k + i) (by omega)]

/-- Settles O28: each view reads its slice of the word; the slices that end at bit 31 need no mask. -/
theorem littleEndianViews : Obligations.LittleEndianViews := by
  intro s t a v h
  have hstart : a = a + BitVec.ofNat 32 0 := (BitVec.add_zero a).symm
  have view {b slice : Word} {w : Width} {k : Nat} :=
    State.memRead_of_memWrite_word (b := b) (slice := slice) (w := w) (k := k) h
  exact ⟨view hstart rfl (by decide) (setWidth_shiftRight_of_top v (k := 0) (by decide)),
    view hstart rfl (by decide) (setWidth_setWidth_eq_and v 8),
    view rfl rfl (by decide) (setWidth_setWidth_eq_and _ 8),
    view rfl rfl (by decide) (setWidth_setWidth_eq_and _ 8),
    view rfl rfl (by decide) (setWidth_shiftRight_of_top v (by decide)),
    view hstart rfl (by decide) (setWidth_setWidth_eq_and v 16),
    view rfl rfl (by decide) (setWidth_shiftRight_of_top v (by decide))⟩

/-- SW to a good address commits the word stored there (43_loadstore.md rule R134). -/
theorem exec_sw_commits {s : State} {rs : Reg} {imm : Imm16}
    (h : accessFault s.cfg (s.effectiveAddress rs imm) .word = none) (rt : Reg) :
    ∃ t, exec (.sw rs rt imm) s = .next t ∧ WritesMemory s t (s.effectiveAddress rs imm).toNat 4 (s.reg rt) ∧
      t.mem = Memory.store s.mem (s.effectiveAddress rs imm).toNat (s.reg rt) 4 := by
  rcases s.store_cases (encode (.sw rs rt imm)) (s.effectiveAddress rs imm) .word (s.reg rt) with
    ⟨c, hc, -⟩ | ⟨-, hs⟩
  · cases h.symm.trans hc
  · exact ⟨_, hs, s.writesMemory_store _ _ _, rfl⟩

/-- LW from a good address writes the word loaded from there (43_loadstore.md rule R131). -/
theorem exec_lw_writesReg {s : State} {rs : Reg} {imm : Imm16}
    (h : accessFault s.cfg (s.effectiveAddress rs imm) .word = none) (rt : Reg) :
    ∃ t, exec (.lw rs rt imm) s = .next t ∧
      WritesReg s t rt (Memory.load s.mem (s.effectiveAddress rs imm).toNat 4) none := by
  rcases s.load_cases (encode (.lw rs rt imm)) (s.effectiveAddress rs imm) .word id rt with ⟨c, hc, -⟩ | ⟨-, hs⟩
  · cases h.symm.trans hc
  · exact ⟨_, hs, s.writesReg_setReg _ _ _⟩

/-- An effective address depends on the base register only. -/
theorem State.effectiveAddress_congr {s t : State} (h : SameRegs s t) (rs : Reg) (imm : Imm16) :
    t.effectiveAddress rs imm = s.effectiveAddress rs imm := congrArg (· + signedImm imm) (h rs)

/-- Settles O27: the store keeps the base register, so the load is from the address stored to. -/
theorem storeThenLoadReturnsTheWord : Obligations.StoreThenLoadReturnsTheWord := by
  intro s rs rt rt' imm hok
  obtain ⟨t, hstore, hwrites, hmem⟩ := exec_sw_commits hok rt
  have haddr := State.effectiveAddress_congr hwrites.regs rs imm
  have hok' : accessFault t.cfg (t.effectiveAddress rs imm) .word = none := by rwa [hwrites.commits.cfg, haddr]
  obtain ⟨u, hload, hreads⟩ := exec_lw_writesReg hok' rt'
  refine ⟨t, u, hstore, hload, fun r => ?_⟩
  rw [hreads.regs r, haddr, hmem, Memory.load_store_word, hwrites.regs r]

/-- Settles O30: the store's commit takes `pc` to the address stored to, and the fetch there reads the word. -/
theorem storeIsSeenByTheNextFetch : Obligations.StoreIsSeenByTheNextFetch := by
  intro s rs rt imm haddr hok
  obtain ⟨t, hstore, hwrites, hmem⟩ := exec_sw_commits (haddr ▸ hok) rt
  refine ⟨t, hstore, ?_⟩
  have hfetch : accessFault t.cfg t.pc .word = none := by rwa [hwrites.commits.cfg, hwrites.commits.pc]
  calc
    t.fetch = .ok (Memory.load t.mem t.pc.toNat 4) := State.memRead_ok hfetch
    _ = .ok (s.reg rt) := by rw [hwrites.commits.pc, hmem, haddr, Memory.load_store_word]

/-- However an instruction ends its cycle, a byte that it changes is one that it stores. -/
theorem ExecEnds.stores_changed_byte {i : Instr} {s t : State} (e : ExecEnds i s (.next t)) {b : Nat}
    (h : Memory.read t.mem b ≠ Memory.read s.mem b) :
    ∃ rs imm width, i.asStore = some (rs, imm, width) ∧
      (s.effectiveAddress rs imm).toNat ≤ b ∧ b < (s.effectiveAddress rs imm).toNat + widthBytes width := by
  cases e with
  | fault k c w a v _ => exact absurd rfl h
  | halt _ _ => exact absurd rfl h
  | commit n out _ _ _ _ memory =>
    rw [State.commit_mem] at h
    rcases memory with hmem | ⟨rs, imm, width, v, hstore, -, hmem⟩
    · exact absurd (by rw [hmem]) h
    · refine ⟨rs, imm, width, hstore, ?_⟩
      by_contra houtside
      exact h (by rw [hmem, Memory.read_store, if_neg houtside])

/-- Settles O18: a halted step and a fault leave memory as it was, and an instruction changes the bytes it stores. -/
theorem onlyStoresChangeMemory : Obligations.OnlyStoresChangeMemory := by
  intro s t b hstep hchanged
  rcases step_cases hstep with ⟨-, rfl⟩ | ⟨-, ⟨c, -, rfl⟩ | ⟨w, e, -, -, rfl⟩ | ⟨w, i, hfetch, hdecode, hends⟩⟩
  · exact absurd rfl hchanged
  · exact absurd rfl hchanged
  · exact absurd rfl hchanged
  · obtain ⟨rs, imm, width, hstore, hbytes⟩ := hends.stores_changed_byte hchanged
    exact ⟨w, i, rs, imm, width, hfetch, hdecode, hstore, hbytes⟩

end Sys2Proof.Machine
end

section
/-! PROOFS. The parameters, the region bounds among them, and a fixed environment (20_memory.md rule R31;
00_scope.md rule R4). -/

namespace Sys2Proof.Machine

/-- However an instruction ends its cycle, it keeps the parameters. -/
theorem ExecEnds.keeps_cfg {i : Instr} {s t : State} (e : ExecEnds i s (.next t)) : t.cfg = s.cfg := by
  cases e with
  | fault k c w a v _ => rfl
  | commit n out keeps _ _ _ _ => exact keeps.cfg
  | halt _ _ => rfl

/-- However an instruction ends its cycle, it keeps an environment that is no free input. -/
theorem ExecEnds.keeps_env {i : Instr} {s t : State} (e : ExecEnds i s (.next t)) (h : ∀ n, s.env ≠ .draws n) :
    t.env = s.env := by
  cases e with
  | fault k c w a v _ => rfl
  | commit n out keeps _ _ _ _ => exact keeps.env h
  | halt _ _ => rfl

/-- What every end of an instruction, every fault and a halted step keep, a step keeps. -/
theorem step_keeps {α : Type} (f : State → α) {s t : State} (hstep : step s = .next t)
    (fault : ∀ k c w a v, f (s.takeFault k c w a v) = f s) (ends : ∀ i, ExecEnds i s (.next t) → f t = f s) :
    f t = f s := by
  rcases step_cases hstep with ⟨-, rfl⟩ | ⟨-, ⟨c, -, rfl⟩ | ⟨w, e, -, -, rfl⟩ | ⟨w, i, -, -, hends⟩⟩
  · rfl
  · exact fault _ _ _ _ _
  · exact fault _ _ _ _ _
  · exact ends i hends

/-- A reset that answers cleared the state and loaded the image (70_reset_and_hazards.md rules R210 and R212). -/
theorem State.eq_of_hostReset {s t : State} {image : List Word} (h : s.hostReset image = .next t) :
    t = s.cleared.loadImage image := by
  unfold State.hostReset at h
  split at h
  · exact (Host.Outcome.next.inj h).symm
  · cases h

/-- Settles O20: an instruction, a fault and a halted step keep the parameters and a fixed environment, and the host's
operations leave both as they were. -/
theorem parametersAreFixed : Obligations.ParametersAreFixed := by
  refine ⟨fun s t hstep => ?_, fun i s t hexec => (ExecEnds.of_exec hexec).keeps_cfg, fun s t image hreset => ?_,
    fun s r v => ⟨rfl, rfl, rfl, rfl⟩, fun s t hfixed hstep => ?_,
    fun i s t hfixed hexec => (ExecEnds.of_exec hexec).keeps_env hfixed, fun s t image hreset => ?_,
    fun s r v => ⟨rfl, rfl, rfl, rfl⟩⟩
  · exact step_keeps State.cfg hstep (fun _ _ _ _ _ => rfl) fun _ hends => hends.keeps_cfg
  · rw [State.eq_of_hostReset hreset]; rfl
  · exact step_keeps State.env hstep (fun _ _ _ _ _ => rfl) fun _ hends => hends.keeps_env hfixed
  · rw [State.eq_of_hostReset hreset]; rfl

end Sys2Proof.Machine
end

section
/-! PROOFS. Decoding and encoding: a word is its decoded fields laid out again, in the format its opcode names
(30_encoding.md rules R51 to R54), and the maps give the operation of a function code or opcode (rules R56 to R58). -/

namespace Sys2Proof

/-! ## Fields by position -/

/-- The word that holds the fields, each at its place (30_encoding.md rules R52 to R54). -/
def Decoded.word : Decoded → Word
  | .rType rs rt rd sh fn => encodeR rs rt rd sh fn
  | .iType op rs rt imm => encodeI op rs rt imm
  | .jType op target => encodeJ op target

/-- The opcode is one of the format (30_encoding.md rule R51). -/
def Decoded.opcodeFits : Decoded → Prop
  | .rType .. => True
  | .iType op .. => op ≠ 0#6 ∧ op ≠ 0x02#6 ∧ op ≠ 0x03#6
  | .jType op _ => op = 0x02#6 ∨ op = 0x03#6

theorem decodeFields_opcodeFits (w : Word) : (decodeFields w).opcodeFits := by
  unfold decodeFields
  split_ifs with h0 hj
  · trivial
  · exact hj
  · exact ⟨h0, not_or.1 hj⟩

theorem word_decodeFields (w : Word) : (decodeFields w).word = w := by
  unfold decodeFields
  split_ifs with h0 hj
  · exact encodeR_fields w h0
  · exact encodeJ_fields w
  · exact encodeI_fields w

theorem decodeFields_word {d : Decoded} (h : d.opcodeFits) : decodeFields d.word = d := by
  cases d with
  | rType rs rt rd sh fn => simp [decodeFields, Decoded.word]
  | iType op rs rt imm =>
    obtain ⟨h0, h2, h3⟩ := h
    simp [decodeFields, Decoded.word, h0, h2, h3]
  | jType op target =>
    rcases h with rfl | rfl <;> simp [decodeFields, Decoded.word]

/-- The decoder's fields are the only ones that fit their format and lay out to the word. -/
theorem decodeFields_eq_iff {w : Word} {d : Decoded} : decodeFields w = d ↔ d.opcodeFits ∧ w = d.word := by
  constructor
  · rintro rfl
    exact ⟨decodeFields_opcodeFits w, (word_decodeFields w).symm⟩
  · rintro ⟨h, rfl⟩
    exact decodeFields_word h

/-! ## The maps -/

/-- In a list whose keys are distinct, the search for a key finds exactly the row that has it. -/
theorem find?_key_eq_some {α κ : Type} [BEq κ] [LawfulBEq κ] {l : List α} {key : α → κ} (h : (l.map key).Nodup)
    (k : κ) (r : α) : l.find? (fun r => key r == k) = some r ↔ r ∈ l ∧ key r = k := by
  constructor
  · intro hfind
    exact ⟨List.mem_of_find?_eq_some hfind, by simpa using List.find?_some hfind⟩
  · rintro ⟨hmem, rfl⟩
    obtain ⟨r', hfind⟩ : ∃ r', l.find? (fun r' => key r' == key r) = some r' :=
      Option.isSome_iff_exists.1 (List.find?_isSome.2 ⟨r, hmem, beq_self_eq_true (key r)⟩)
    have hkey : key r' = key r := by simpa using List.find?_some hfind
    rw [hfind, List.inj_on_of_nodup_map h (List.mem_of_find?_eq_some hfind) hmem hkey]

theorem iRows_no_overlap : (iRows.map IRow.opcode).Nodup := by decide
theorem jRows_no_overlap : (jRows.map JRow.opcode).Nodup := by decide

theorem dispatch_rType_eq_ok {rs rt rd : Reg} {sh : Shamt} {fn : BitVec 6} {i : Instr} :
    dispatch (.rType rs rt rd sh fn) = .ok i ↔ ∃ row ∈ rRows, row.funct = fn ∧ row.make rs rt rd sh = i := by
  simp only [← and_assoc, ← find?_key_eq_some rRows_no_overlap, dispatch]
  cases rRows.find? (fun r => r.funct == fn) <;> simp

theorem dispatch_iType_eq_ok {op : BitVec 6} {rs rt : Reg} {imm : Imm16} {i : Instr} :
    dispatch (.iType op rs rt imm) = .ok i ↔ ∃ row ∈ iRows, row.opcode = op ∧ row.make rs rt imm = i := by
  simp only [← and_assoc, ← find?_key_eq_some iRows_no_overlap, dispatch]
  cases iRows.find? (fun r => r.opcode == op) <;> simp

theorem dispatch_jType_eq_ok {op : BitVec 6} {target : Target26} {i : Instr} :
    dispatch (.jType op target) = .ok i ↔ ∃ row ∈ jRows, row.opcode = op ∧ row.make target = i := by
  simp only [← and_assoc, ← find?_key_eq_some jRows_no_overlap, dispatch]
  cases jRows.find? (fun r => r.opcode == op) <;> simp

theorem encode_rRow :
    ∀ row ∈ rRows, ∀ rs rt rd sh, encode (row.make rs rt rd sh) = encodeR rs rt rd sh row.funct := by
  simp [rRows, encode]

theorem encode_iRow : ∀ row ∈ iRows, ∀ rs rt imm, encode (row.make rs rt imm) = encodeI row.opcode rs rt imm := by
  simp [iRows, encode]

theorem encode_jRow : ∀ row ∈ jRows, ∀ target, encode (row.make target) = encodeJ row.opcode target := by
  simp [jRows, encode]

/-! ## Decode and encode undo each other -/

/-- The encoder and the maps agree: what fields dispatch to is encoded as their word. -/
theorem encode_of_dispatch {d : Decoded} {i : Instr} (h : dispatch d = .ok i) : encode i = d.word := by
  cases d with
  | rType rs rt rd sh fn =>
    obtain ⟨row, hrow, rfl, rfl⟩ := dispatch_rType_eq_ok.1 h
    exact encode_rRow row hrow rs rt rd sh
  | iType op rs rt imm =>
    obtain ⟨row, hrow, rfl, rfl⟩ := dispatch_iType_eq_ok.1 h
    exact encode_iRow row hrow rs rt imm
  | jType op target =>
    obtain ⟨row, hrow, rfl, rfl⟩ := dispatch_jType_eq_ok.1 h
    exact encode_jRow row hrow target

theorem decode_word {d : Decoded} (h : d.opcodeFits) : decode d.word = dispatch d :=
  congrArg dispatch (decodeFields_word h)

theorem decode_encode (i : Instr) : decode (encode i) = .ok i := by
  cases i with
  | j target => exact decode_word (d := .jType _ target) (.inl rfl)
  | jal target => exact decode_word (d := .jType _ target) (.inr rfl)
  | beq rs rt imm | bne rs rt imm | blez rs rt imm | bgtz rs rt imm | addi rs rt imm | addiu rs rt imm
  | slti rs rt imm | andi rs rt imm | ori rs rt imm | xori rs rt imm | lui rs rt imm | lb rs rt imm | lh rs rt imm
  | lw rs rt imm | lbu rs rt imm | lhu rs rt imm | sb rs rt imm | sh rs rt imm | sw rs rt imm =>
    exact decode_word (d := .iType _ rs rt imm) ⟨by decide, by decide, by decide⟩
  | _ => exact decode_word (d := .rType _ _ _ _ _) trivial

/-- Four bytes, the highest address on the left, make up their word again (20_memory.md rule R34). -/
theorem wordBytes_append (w : Word) :
    w.extractLsb' 24 8 ++ w.extractLsb' 16 8 ++ w.extractLsb' 8 8 ++ w.extractLsb' 0 8 = w := by
  have h24 : w.extractLsb' 24 8 ++ w.extractLsb' 16 8 = w.extractLsb' 16 16 :=
    BitVec.extractLsb'_append_extractLsb'_eq_extractLsb' rfl
  have h16 : w.extractLsb' 16 16 ++ w.extractLsb' 8 8 = w.extractLsb' 8 24 :=
    BitVec.extractLsb'_append_extractLsb'_eq_extractLsb' rfl
  have h8 : w.extractLsb' 8 24 ++ w.extractLsb' 0 8 = w.extractLsb' 0 32 :=
    BitVec.extractLsb'_append_extractLsb'_eq_extractLsb' rfl
  rw [h24, h16, h8, BitVec.extractLsb'_eq_self]

theorem decodeBytes_wordBytes {w : Word} {i : Instr} (h : decode w = .ok i) (rest : List Byte) :
    decodeBytes (wordBytes w ++ rest) = .ok (i, rest) := by
  simp [wordBytes, decodeBytes, wordBytes_append, h]

/-- Settles O1: the encoder lays the fields out in the format of the opcode, and the maps lead back. -/
theorem decodeOfEncodeIsTheInstruction : Obligations.DecodeOfEncodeIsTheInstruction :=
  fun i rest => ⟨decode_encode i, decodeBytes_wordBytes (decode_encode i) rest⟩

/-- Settles O2: the fields of a word lay out to it again, those the operation ignores included. -/
theorem encodeOfDecodeIsTheWord : Obligations.EncodeOfDecodeIsTheWord :=
  fun w _ h => (encode_of_dispatch h).trans (word_decodeFields w)

/-! ## The words that decode -/

theorem exists_dispatch_rType {rs rt rd : Reg} {sh : Shamt} {fn : BitVec 6} :
    (∃ i, dispatch (.rType rs rt rd sh fn) = .ok i) ↔ fn ∈ rRows.map RRow.funct := by
  simp [dispatch_rType_eq_ok]

theorem exists_dispatch_iType {op : BitVec 6} {rs rt : Reg} {imm : Imm16} :
    (∃ i, dispatch (.iType op rs rt imm) = .ok i) ↔ op ∈ iRows.map IRow.opcode := by
  simp [dispatch_iType_eq_ok]

theorem exists_dispatch_jType {op : BitVec 6} {target : Target26} :
    (∃ i, dispatch (.jType op target) = .ok i) ↔ op ∈ jRows.map JRow.opcode := by
  simp [dispatch_jType_eq_ok]

/-- The words that decode, by the function map and the opcode map (30_encoding.md rules R57, R58 and R60). -/
theorem exists_decode_iff (w : Word) :
    (∃ i, decode w = .ok i) ↔
      (fieldOpcode w = 0#6 ∧ fieldFunct w ∈ rRows.map RRow.funct) ∨
      fieldOpcode w ∈ jRows.map JRow.opcode ++ iRows.map IRow.opcode := by
  unfold decode decodeFields
  split_ifs with h0 hj
  · have hother : 0#6 ∉ jRows.map JRow.opcode ++ iRows.map IRow.opcode := by decide
    rw [exists_dispatch_rType, h0]
    simp only [true_and, hother, or_false]
  · have hjump : fieldOpcode w ∈ jRows.map JRow.opcode := by
      rcases hj with h | h <;> rw [h] <;> decide
    rw [exists_dispatch_jType]
    simp only [hjump, List.mem_append, true_or, or_true]
  · have hjump : fieldOpcode w ∉ jRows.map JRow.opcode := by simpa [jRows] using hj
    rw [exists_dispatch_iType]
    simp only [h0, false_and, false_or, List.mem_append, hjump]

theorem fieldOpcode_toNat (w : Word) : (fieldOpcode w).toNat = w.toNat / 2 ^ 26 := by
  have hw := w.isLt
  rw [fieldOpcode, BitVec.extractLsb'_toNat, Nat.shiftRight_eq_div_pow]
  omega

theorem fieldFunct_toNat (w : Word) : (fieldFunct w).toNat = w.toNat % 2 ^ 6 :=
  BitVec.extractLsb'_toNat 0 6 w

/-- Settles O3: the numbers listed are the keys of the maps, in the maps' order. -/
theorem exactlyTheMappedWordsDecode : Obligations.ExactlyTheMappedWordsDecode := by
  intro w
  constructor
  · have numbers {v : BitVec 6} {l : List (BitVec 6)} : v ∈ l ↔ v.toNat ∈ l.map BitVec.toNat :=
      (List.mem_map_of_injective BitVec.toNat_injective).symm
    rw [exists_decode_iff, numbers, numbers (v := fieldOpcode w), ← BitVec.toNat_inj, fieldOpcode_toNat,
      fieldFunct_toNat]
    rfl
  · intro hnone
    cases h : decode w with
    | ok i => exact absurd ⟨i, h⟩ hnone
    | error e => exact ⟨e, rfl⟩

/-! ## The fields as numbers -/

/-- A concatenation as a number: the left part stands above the bits of the right. -/
theorem toNat_append_eq_add {m n : Nat} (x : BitVec m) (y : BitVec n) :
    (x ++ y).toNat = x.toNat * 2 ^ n + y.toNat := by
  rw [BitVec.toNat_append, ← Nat.shiftLeft_add_eq_or_of_lt y.isLt, Nat.shiftLeft_eq]

theorem encodeR_toNat (rs rt rd : Reg) (sh : Shamt) (fn : BitVec 6) :
    (encodeR rs rt rd sh fn).toNat =
      rs.toNat * 2 ^ 21 + rt.toNat * 2 ^ 16 + rd.toNat * 2 ^ 11 + sh.toNat * 2 ^ 6 + fn.toNat := by
  simp only [encodeR, toNat_append_eq_add, BitVec.toNat_ofNat]
  omega

theorem encodeI_toNat (op : BitVec 6) (rs rt : Reg) (imm : Imm16) :
    (encodeI op rs rt imm).toNat =
      op.toNat * 2 ^ 26 + rs.toNat * 2 ^ 21 + rt.toNat * 2 ^ 16 + imm.toNat := by
  simp only [encodeI, toNat_append_eq_add]
  omega

theorem encodeJ_toNat (op : BitVec 6) (target : Target26) :
    (encodeJ op target).toNat = op.toNat * 2 ^ 26 + target.toNat := toNat_append_eq_add op target

/-- Settles O4: the decoder's fields are those that fit their format and lay out to the word, read as numbers. -/
theorem formatAndFieldsByPosition : Obligations.FormatAndFieldsByPosition := by
  intro w
  refine ⟨fun rs rt rd sh fn => ?_, fun op target => ?_, fun op rs rt imm => ?_⟩
  · rw [decodeFields_eq_iff, ← encodeR_toNat, BitVec.toNat_inj]
    exact iff_of_eq (true_and _)
  · rw [decodeFields_eq_iff, ← encodeJ_toNat, BitVec.toNat_inj]
    simp only [Decoded.opcodeFits, Decoded.word, ← BitVec.toNat_inj (x := op), BitVec.reduceToNat]
  · rw [decodeFields_eq_iff, ← encodeI_toNat, BitVec.toNat_inj]
    simp only [Decoded.opcodeFits, Decoded.word, ← BitVec.toNat_inj (x := op), ne_eq, BitVec.reduceToNat, and_assoc]

/-- Settles O5: each word is evaluated. -/
theorem sampleWordsDecode : Obligations.SampleWordsDecode := by
  unfold Obligations.SampleWordsDecode
  decide

end Sys2Proof
end

section
/-! PROOFS. The operand forms as integers (30_encoding.md rule R59). -/

namespace Sys2Proof.Machine

/-- A word's unsigned value is its signed value modulo 2^32. -/
theorem toNat_eq_toInt_emod (x : Word) : (x.toNat : Int) = x.toInt % 2 ^ 32 := by
  have hx := x.isLt
  rw [BitVec.toInt_eq_toNat_cond]
  split <;> omega

theorem signedImm_toInt (imm : Imm16) : (signedImm imm).toInt = imm.toInt := BitVec.toInt_signExtend_of_le (by decide)

theorem signedImm_toNat (imm : Imm16) : ((signedImm imm).toNat : Int) = imm.toInt % 2 ^ 32 := by
  rw [toNat_eq_toInt_emod, signedImm_toInt]

theorem logicalImm_toNat (imm : Imm16) : (logicalImm imm).toNat = imm.toNat :=
  BitVec.toNat_setWidth_of_le (by decide)

theorem upperImm_toNat (imm : Imm16) : (upperImm imm).toNat = imm.toNat * 2 ^ 16 := by
  rw [upperImm, toNat_append_eq_add, BitVec.toNat_ofNat, Nat.zero_mod, Nat.add_zero]

theorem State.effectiveAddress_toNat (s : State) (rs : Reg) (imm : Imm16) :
    ((s.effectiveAddress rs imm).toNat : Int) = ((s.reg rs).toNat + imm.toInt) % 2 ^ 32 := by
  have himm := signedImm_toNat imm
  rw [State.effectiveAddress, BitVec.toNat_add]
  omega

theorem branchTarget_toNat (pc : Word) (imm : Imm16) :
    ((branchTarget pc imm).toNat : Int) = (pc.toNat + 4 + 4 * imm.toInt) % 2 ^ 32 := by
  have himm := signedImm_toNat imm
  rw [branchTarget, BitVec.toNat_add, BitVec.toNat_add, BitVec.toNat_shiftLeft, Nat.shiftLeft_eq, BitVec.toNat_ofNat]
  omega

/-- A jump target: the top four bits of `pc`, then the field, then two zeros (44_control.md rule R155). -/
theorem jumpTarget_eq_append (pc : Word) (target : Target26) :
    jumpTarget pc target = pc.extractLsb' 28 4 ++ (target ++ 0#2) := by
  apply BitVec.eq_of_getLsbD_eq
  intro i hi
  simp only [jumpTarget, BitVec.getLsbD_or, BitVec.getLsbD_and, BitVec.getLsbD_shiftLeft, BitVec.getLsbD_setWidth,
    BitVec.getLsbD_append, BitVec.getLsbD_extractLsb']
  interval_cases i <;> simp

theorem jumpTarget_toNat (pc : Word) (target : Target26) :
    (jumpTarget pc target).toNat = pc.toNat / 2 ^ 28 * 2 ^ 28 + 4 * target.toNat := by
  have hpc := pc.isLt
  rw [jumpTarget_eq_append, toNat_append_eq_add, toNat_append_eq_add, BitVec.extractLsb'_toNat,
    Nat.shiftRight_eq_div_pow, BitVec.toNat_ofNat]
  omega

theorem linkAddress_toNat (pc : Word) : (linkAddress pc).toNat = (pc.toNat + 8) % 2 ^ 32 := BitVec.toNat_add pc 8#32

/-- Settles O6, form by form. -/
theorem operandForms : Obligations.OperandForms :=
  fun imm target pc s rs => ⟨signedImm_toInt imm, logicalImm_toNat imm, upperImm_toNat imm,
    s.effectiveAddress_toNat rs imm, branchTarget_toNat pc imm, jumpTarget_toNat pc target, linkAddress_toNat pc⟩

end Sys2Proof.Machine
end

section
/-! PROOFS. The cycle: the instruction a step runs, the faults before any operand is read, and that a step commits or
faults, from which the delay slot follows (40_cycle.md rules R70 to R77 and R80). -/

namespace Sys2Proof.Machine

/-! ## What a running step does, by its fetch and decode -/

theorem step_of_fetch_error {s : State} {c : MemCause} (hr : s.runFlag = true) (hf : s.fetch = .error c) :
    step s = .next (s.takeFault .memoryFault (some c) none (some s.pc) none) := by
  simp only [step, hr, if_true, cycle, hf, State.fetchFault]

theorem step_of_decode_error {s : State} {w : Word} {e : DecodeError} (hr : s.runFlag = true) (hf : s.fetch = .ok w)
    (hd : decode w = .error e) : step s = .next (s.takeFault .decodeFault none (some w) none none) := by
  simp only [step, hr, if_true, cycle, hf, hd, State.decodeFault]

theorem step_of_decode_ok {s : State} {w : Word} {i : Instr} (hr : s.runFlag = true) (hf : s.fetch = .ok w)
    (hd : decode w = .ok i) : step s = exec i s := by
  simp only [step, hr, if_true, cycle, hf, hd]

/-- Four bytes that decode are, highest address on the left, a word that decodes (20_memory.md rule R34). -/
theorem decode_of_decodeBytes_four {b0 b1 b2 b3 : Byte} {i : Instr} (h : decodeBytes [b0, b1, b2, b3] = .ok (i, [])) :
    decode (b3 ++ b2 ++ b1 ++ b0) = .ok i := by
  cases hd : decode (b3 ++ b2 ++ b1 ++ b0) with
  | error e => simp [decodeBytes, hd] at h
  | ok j => simpa [decodeBytes, hd] using h

/-- Settles O7: the word fetched is made of the four bytes at `pc`. -/
theorem stepRunsTheDecodedInstruction : Obligations.StepRunsTheDecodedInstruction := by
  intro s i hr hok hbytes
  refine step_of_decode_ok hr (State.memRead_ok hok) ?_
  rw [widthBytes, Memory.load_four]
  exact decode_of_decodeBytes_four hbytes

/-- A word that is no instruction of the configuration takes the DecodeFault that records it: it decodes to none, or to
one that the configuration lacks, whose word it is (60_exceptions.md rule R181). -/
theorem step_of_no_instruction {s : State} {w : Word} (hr : s.runFlag = true) (hf : s.fetch = .ok w)
    (hw : ¬ ∃ i, decode w = .ok i ∧ i.wf s.cfg = true) :
    step s = .next (s.takeFault .decodeFault none (some w) none none) := by
  cases hd : decode w with
  | error e => exact step_of_decode_error hr hf hd
  | ok i =>
    have habsent : i.wf s.cfg = false := Bool.eq_false_iff.2 fun hwf => hw ⟨i, hd, hwf⟩
    rw [step_of_decode_ok hr hf hd, exec_eq_decodeFault_of_not_wf habsent, encodeOfDecodeIsTheWord w i hd]
    rfl

/-- Settles O11: the two faults that come before an instruction runs, each with its record and its frame. -/
theorem fetchAndDecodeFaultsHalt : Obligations.FetchAndDecodeFaultsHalt :=
  fun s hr => ⟨fun _ hc => ⟨_, step_of_fetch_error hr (State.memRead_error hc), s.takesFault _ _ _ _ _⟩,
    fun _ hf hw => ⟨_, step_of_no_instruction hr hf hw, s.takesFault _ _ _ _ _⟩⟩

/-! ## A cycle commits or faults -/

/-- The commit of a `next` buffer does all that a commit does (40_cycle.md rule R75). -/
theorem Keeps.commits {s n : State} (h : Keeps s n) (out : Option Word) : Commits s (n.commit out) out :=
  s.commits_of n out h.pc h.redirect h.count h.diag h.program h.cfg

/-- Stopping the core undoes nothing of a commit. -/
theorem Commits.stop {s t : State} {out : Option Word} (h : Commits s t out) : Commits s t.stop out := { h with }

/-- However an instruction ends its cycle, it commits or it faults. -/
theorem ExecEnds.commits_or_faults {i : Instr} {s t : State} (e : ExecEnds i s (.next t)) :
    Commits s t t.redirect ∨ ∃ kind cause word addr value, TakesFault s t kind cause word addr value := by
  cases e with
  | fault k c w a v _ => exact .inr ⟨_, _, _, _, _, s.takesFault _ _ _ _ _⟩
  | commit n out keeps _ _ _ _ => exact .inl (keeps.commits out)
  | halt _ _ => exact .inl ((Keeps.refl s).commits none).stop

/-- Settles O10, by the ways a running step can end. -/
theorem everyCycleCommitsOrFaults : Obligations.EveryCycleCommitsOrFaults := by
  intro s t hr hstep
  rcases step_cases hstep with ⟨hr', -⟩ | ⟨-, ⟨c, -, rfl⟩ | ⟨w, e, -, -, rfl⟩ | ⟨w, i, -, -, hends⟩⟩
  · exact absurd hr (by simp [hr'])
  · exact .inr ⟨_, _, _, _, _, s.takesFault _ _ _ _ _⟩
  · exact .inr ⟨_, _, _, _, _, s.takesFault _ _ _ _ _⟩
  · exact hends.commits_or_faults

/-- A step that counts commits: a halted step and a fault leave the count (10_state.md rule R20). -/
theorem commits_of_step_counts {s t : State} (hstep : step s = .next t)
    (hcount : t.instructionCount ≠ s.instructionCount) : Commits s t t.redirect := by
  cases hr : s.runFlag with
  | false =>
    rw [step_halted hr] at hstep
    cases hstep
    exact absurd rfl hcount
  | true =>
    rcases everyCycleCommitsOrFaults s t hr hstep with hcommits | ⟨_, _, _, _, _, hfault⟩
    · exact hcommits
    · exact absurd hfault.count hcount

/-! ## The delay slot -/

theorem State.nextPc_of_redirect_eq_none {s : State} (h : s.redirect = none) : s.nextPc = s.pc + 4#32 := by
  simp only [State.nextPc, h]

theorem State.nextPc_of_redirect_eq_some {s : State} {target : Word} (h : s.redirect = some target) :
    s.nextPc = target := by
  simp only [State.nextPc, h]

/-- Settles O14: each commit takes `pc` to `nextPc`, first of a state with no redirect, then of one with the redirect
that the first instruction recorded. -/
theorem oneDelaySlot : Obligations.OneDelaySlot := by
  intro s t u hnone hst hct htu hcu
  have hpc : t.pc = s.pc + 4#32 :=
    (commits_of_step_counts hst hct).pc.trans (State.nextPc_of_redirect_eq_none hnone)
  have hslot : u.pc = t.nextPc := (commits_of_step_counts htu hcu).pc
  exact ⟨hpc, fun target htarget => hslot.trans (State.nextPc_of_redirect_eq_some htarget),
    fun hnone' => by rw [hslot, State.nextPc_of_redirect_eq_none hnone', hpc]⟩

/-- Settles O15: the commit of the transfer in the delay slot applies `T1`, and the one at `T1` applies `T2`. -/
theorem transferInDelaySlot : Obligations.TransferInDelaySlot := by
  intro s t u t1 t2 h1 hst hct h2 htu hcu
  exact ⟨(commits_of_step_counts hst hct).pc.trans (State.nextPc_of_redirect_eq_some h1),
    (commits_of_step_counts htu hcu).pc.trans (State.nextPc_of_redirect_eq_some h2)⟩

/-- Settles O16, by the ways an instruction can end its cycle: a fault does not count, and the halting SYSCALL commits
with no redirect. -/
theorem onlyTransfersRedirect : Obligations.OnlyTransfersRedirect := by
  intro i s t hexec hcount htransfer
  cases ExecEnds.of_exec hexec with
  | fault k c w a v _ => exact absurd rfl hcount
  | commit n out _ redirect _ _ _ => exact redirect htransfer
  | halt _ _ => rfl

end Sys2Proof.Machine
end

section
/-! PROOFS. Running several cycles: a run is its steps one after the other, and a halted core runs nothing
(40_cycle.md rules R78 and R79). -/

namespace Sys2Proof.Machine

/-- A halted core runs nothing (40_cycle.md rule R79). -/
theorem State.runFor_halted {s : State} (h : s.runFlag = false) (n : Nat) : s.runFor n = .next s := by
  cases n with
  | zero => rfl
  | succ n => simp [State.runFor, h]

/-- Settles O8. -/
theorem haltedIsAbsorbing : Obligations.HaltedIsAbsorbing :=
  fun s hr => ⟨step_halted hr, State.runFor_halted hr, fun _ _ => hr, fun _ => hr, fun _ => hr, s.stop_runFlag,
    fun _ _ h => State.hostReset_runFlag h⟩

/-- Every end of an instruction's cycle is a next state. -/
theorem ExecEnds.exists_next {i : Instr} {s : State} {o : Outcome} (e : ExecEnds i s o) : ∃ t, o = .next t := by
  cases e <;> exact ⟨_, rfl⟩

/-- A step answers a next state, whatever the state (60_exceptions.md rule R186). -/
theorem step_exists_next (s : State) : ∃ t, step s = .next t := by
  cases hr : s.runFlag with
  | false => exact ⟨s, step_halted hr⟩
  | true =>
    rcases step_running hr with ⟨c, -, hs⟩ | ⟨w, e, -, -, hs⟩ | ⟨w, i, -, -, hs⟩
    · exact ⟨_, hs⟩
    · exact ⟨_, hs⟩
    · exact hs ▸ (exec_ends i s).exists_next

/-- A run of one cycle more is a step, then the run; on a halted core both do nothing (40_cycle.md rule R79). -/
theorem State.runFor_succ {s t : State} (h : step s = .next t) (n : Nat) : s.runFor (n + 1) = t.runFor n := by
  cases hr : s.runFlag with
  | false =>
    rw [step_halted hr] at h
    cases h
    rw [State.runFor_halted hr, State.runFor_halted hr]
  | true =>
    have hcycle : cycle s = .next t := by rwa [step, if_pos hr] at h
    simp only [State.runFor, hr, if_true, hcycle]

theorem State.runFor_one (s : State) : s.runFor 1 = step s := by
  obtain ⟨t, h⟩ := step_exists_next s
  rw [State.runFor_succ h, h, State.runFor]

/-- A run of one step more of any machine is a step, then the run. -/
theorem coreRun_succ {M : Host.Core} {s t : M.State} (h : M.step s = .next t) (n : Nat) :
    M.run (n + 1) s = M.run n t := by
  rw [Host.Core.run, h]

/-- A run of n cycles is n steps of the machine (40_cycle.md rule R79). -/
theorem State.runFor_eq_run (s : State) (n : Nat) : s.runFor n = core.run n s := by
  induction n generalizing s with
  | zero => rfl
  | succ n ih =>
    obtain ⟨t, h⟩ := step_exists_next s
    rw [State.runFor_succ h, ih t]
    exact (coreRun_succ (M := core) h n).symm

theorem State.runFor_exists_next (s : State) (n : Nat) : ∃ t, s.runFor n = .next t := by
  induction n generalizing s with
  | zero => exact ⟨s, rfl⟩
  | succ n ih =>
    obtain ⟨t, h⟩ := step_exists_next s
    rw [State.runFor_succ h]
    exact ih t

/-- A run may be cut anywhere (40_cycle.md rule R79). -/
theorem State.runFor_add {s t : State} {a : Nat} (h : s.runFor a = .next t) (b : Nat) :
    s.runFor (a + b) = t.runFor b := by
  induction a generalizing s with
  | zero =>
    cases h
    rw [Nat.zero_add]
  | succ a ih =>
    obtain ⟨s', hstep⟩ := step_exists_next s
    rw [State.runFor_succ hstep] at h
    rw [Nat.succ_add, State.runFor_succ hstep]
    exact ih h

/-- Longer runs end where the core halted. -/
theorem State.runFor_add_of_halted {s t : State} {a : Nat} (h : s.runFor a = .next t) (ht : t.runFlag = false)
    (b : Nat) : s.runFor (a + b) = .next t := by
  rw [State.runFor_add h, State.runFor_halted ht]

/-- A run to completion has one end: the longer of two completed runs ends where the shorter halted. -/
theorem State.RunsToCompletion.unique {s t u : State} (ht : s.RunsToCompletion t) (hu : s.RunsToCompletion u) :
    u = t := by
  obtain ⟨a, hat, ht⟩ := ht
  obtain ⟨b, hbu, hu⟩ := hu
  have hut : Host.Outcome.next u = .next t := calc
    .next u = s.runFor (b + a) := (State.runFor_add_of_halted hbu hu a).symm
    _ = s.runFor (a + b) := by rw [Nat.add_comm]
    _ = .next t := State.runFor_add_of_halted hat ht b
  exact Host.Outcome.next.inj hut

/-- Settles O60, clause by clause, from what one more cycle adds to a run and where a run may be cut. -/
theorem runsCompose : Obligations.RunsCompose := by
  intro s a b
  obtain ⟨t, ht⟩ := s.runFor_exists_next a
  refine ⟨rfl, fun hr => State.runFor_halted hr a, s.runFor_one, s.runFor_eq_run a,
    ⟨t, ht, State.runFor_add ht b, fun hhalt => ?_⟩, ?_⟩
  · have hdone : s.RunsToCompletion t := ⟨a, ht, hhalt⟩
    exact ⟨hdone, State.runFor_add_of_halted ht hhalt b, fun u hu => hdone.unique hu⟩
  · rintro hruns ⟨t, n, hn, hhalt⟩
    exact absurd (hruns n t hn) (by simp [hhalt])

end Sys2Proof.Machine
end

section
/-! PROOFS. Arithmetic, logic and shifts: when a signed result fits, what the checked and the unchecked instructions write,
and the results bit by bit or as numbers (41_alu.md). -/

namespace Sys2Proof.Machine

/-! ## Signed overflow (41_alu.md rule R110) -/

/-- An integer that a word holds as a signed value (41_alu.md rule R110). -/
def FitsSigned (r : Int) : Prop := -2 ^ 31 ≤ r ∧ r ≤ 2 ^ 31 - 1

theorem addOverflows_eq_saddOverflow (a b : Word) : addOverflows a b = a.saddOverflow b :=
  (BitVec.saddOverflow_eq a b).symm

theorem subOverflows_eq_ssubOverflow (a b : Word) : subOverflows a b = a.ssubOverflow b := by
  rw [BitVec.ssubOverflow_eq, subOverflows]
  cases a.msb <;> cases b.msb <;> simp

theorem addOverflows_iff (a b : Word) : addOverflows a b = true ↔ ¬ FitsSigned (a.toInt + b.toInt) := by
  rw [addOverflows_eq_saddOverflow, BitVec.saddOverflow, FitsSigned, Bool.or_eq_true, decide_eq_true_iff,
    decide_eq_true_iff]
  omega

theorem subOverflows_iff (a b : Word) : subOverflows a b = true ↔ ¬ FitsSigned (a.toInt - b.toInt) := by
  rw [subOverflows_eq_ssubOverflow, BitVec.ssubOverflow, FitsSigned, Bool.or_eq_true, decide_eq_true_iff,
    decide_eq_true_iff]
  omega

/-- Settles O31: the sign tests are the library's overflow predicates, which are the ranges. -/
theorem overflowIsTheSignedRange : Obligations.OverflowIsTheSignedRange :=
  fun a b => ⟨addOverflows_iff a b, subOverflows_iff a b⟩

/-! ## The instructions with an overflow check (41_alu.md rules R91, R93 and R103) -/

section
variable (s : State) (w : Word) (d : Reg) {a b : Word}

theorem State.addChecked_of_fits (h : FitsSigned (a.toInt + b.toInt)) :
    ∃ t v, s.addChecked w d a b = .next t ∧ v.toInt = a.toInt + b.toInt ∧ WritesReg s t d v none := by
  rcases s.addChecked_cases w d a b with ⟨hover, -⟩ | ⟨hfit, hnext⟩
  · exact absurd h ((addOverflows_iff a b).1 hover)
  · have hsum : (a + b).toInt = a.toInt + b.toInt :=
      BitVec.toInt_add_of_not_saddOverflow (by simp [← addOverflows_eq_saddOverflow, hfit])
    exact ⟨_, _, hnext, hsum, s.writesReg_setReg d _ none⟩

theorem State.subChecked_of_fits (h : FitsSigned (a.toInt - b.toInt)) :
    ∃ t v, s.subChecked w d a b = .next t ∧ v.toInt = a.toInt - b.toInt ∧ WritesReg s t d v none := by
  rcases s.subChecked_cases w d a b with ⟨hover, -⟩ | ⟨hfit, hnext⟩
  · exact absurd h ((subOverflows_iff a b).1 hover)
  · have hdiff : (a - b).toInt = a.toInt - b.toInt :=
      BitVec.toInt_sub_of_not_ssubOverflow (by simp [← subOverflows_eq_ssubOverflow, hfit])
    exact ⟨_, _, hnext, hdiff, s.writesReg_setReg d _ none⟩

theorem State.addChecked_of_not_fits (h : ¬ FitsSigned (a.toInt + b.toInt)) :
    ∃ t, s.addChecked w d a b = .next t ∧ TakesFault s t .overflowFault none (some w) none none := by
  rcases s.addChecked_cases w d a b with ⟨-, hnext⟩ | ⟨hfit, -⟩
  · exact ⟨_, hnext, s.takesFault _ _ _ _ _⟩
  · cases hfit.symm.trans ((addOverflows_iff a b).2 h)

theorem State.subChecked_of_not_fits (h : ¬ FitsSigned (a.toInt - b.toInt)) :
    ∃ t, s.subChecked w d a b = .next t ∧ TakesFault s t .overflowFault none (some w) none none := by
  rcases s.subChecked_cases w d a b with ⟨-, hnext⟩ | ⟨hfit, -⟩
  · exact ⟨_, hnext, s.takesFault _ _ _ _ _⟩
  · cases hfit.symm.trans ((subOverflows_iff a b).2 h)

end

/-- Settles O33: where the result fits, the check passes and the result modulo 2^32 is exact. -/
theorem addiAndSub : Obligations.AddiAndSub := by
  intro s rs rt rd sh imm
  constructor
  · intro r hfits
    have hr : r = (s.reg rs).toInt + (signedImm imm).toInt := by rw [signedImm_toInt]
    rw [hr] at hfits ⊢
    exact s.addChecked_of_fits _ rt hfits
  · exact fun hfits => s.subChecked_of_fits _ rd hfits

/-- Settles O34: where the result does not fit, the check takes the fault before any write. -/
theorem overflowFaultsHalt : Obligations.OverflowFaultsHalt := by
  intro s rs rt rd sh imm fits faults
  refine ⟨fun h => s.addChecked_of_not_fits _ rd h, fun h => ?_, fun h => s.subChecked_of_not_fits _ rd h⟩
  rw [← signedImm_toInt] at h
  exact s.addChecked_of_not_fits _ rt h

/-! ## ADD in the words of its rule (41_alu.md rule R91) -/

theorem msb_eq_msb_iff (x y : Word) : x.msb = y.msb ↔ x.toNat / 2 ^ 31 = y.toNat / 2 ^ 31 := by
  have hx := x.isLt
  have hy := y.isLt
  rw [BitVec.msb_eq_toNat, BitVec.msb_eq_toNat, decide_eq_decide]
  omega

theorem addOverflows_iff_topBits (a b : Word) :
    addOverflows a b = true ↔ a.toNat / 2 ^ 31 = b.toNat / 2 ^ 31 ∧
      (a.toNat + b.toNat) % 2 ^ 32 / 2 ^ 31 ≠ a.toNat / 2 ^ 31 := by
  rw [addOverflows, Bool.and_eq_true, beq_iff_eq, bne_iff_ne, ne_eq, msb_eq_msb_iff, msb_eq_msb_iff, BitVec.toNat_add]

theorem TakesFault.sameRegs {s t : State} {kind : FaultKind} {cause : Option MemCause} {word addr value : Option Word}
    (h : TakesFault s t kind cause word addr value) : SameRegs s t := fun r => congrArg (gprRead · r) h.gpr

/-- Settles O32: the word is the encoder's, and the rule's condition is the overflow check. -/
theorem addSumOrOverflow : Obligations.AddSumOrOverflow := by
  intro s rs rt rd sh
  constructor
  · intro w hw
    have henc : w = encode (.add rs rt rd sh) :=
      BitVec.eq_of_toNat_eq (hw.trans (encodeR_toNat rs rt rd sh 0x20#6).symm)
    exact henc ▸ decode_encode _
  · intro a b r
    have hcond := addOverflows_iff_topBits (s.reg rs) (s.reg rt)
    rcases s.addChecked_cases (encode (.add rs rt rd sh)) rd (s.reg rs) (s.reg rt) with ⟨hover, hnext⟩ | ⟨hfit, hnext⟩
    · have hfault := s.takesFault .overflowFault none (some (encode (.add rs rt rd sh))) none none
      rw [if_pos (hcond.1 hover)]
      exact ⟨_, _, hnext, hfault.diag, rfl, hfault.sameRegs⟩
    · rw [if_neg (mt hcond.2 (by simp [hfit]))]
      exact ⟨_, _, hnext, BitVec.toNat_add _ _, s.writesReg_setReg rd _ none⟩

/-! ## The instructions without a check (41_alu.md rules R92 and R94 to R108) -/

/-- A difference of words is the difference of their values modulo 2^32. -/
theorem toNat_sub_eq_emod (a b : Word) : ((a - b).toNat : Int) = (a.toNat - b.toNat : Int) % 2 ^ 32 := by
  have hb := b.isLt
  rw [BitVec.toNat_sub]
  omega

/-- Settles O35: each writes its result whatever the operands; ADDIU adds as an effective address does. -/
theorem adduSubuAddiu : Obligations.AdduSubuAddiu :=
  fun s rs rt rd _ imm =>
    ⟨⟨_, _, rfl, BitVec.toNat_add (s.reg rs) (s.reg rt), s.writesReg_setReg rd _ none⟩,
      ⟨_, _, rfl, toNat_sub_eq_emod (s.reg rs) (s.reg rt), s.writesReg_setReg rd _ none⟩,
      ⟨_, _, rfl, s.effectiveAddress_toNat rs imm, s.writesReg_setReg rt _ none⟩⟩

/-- Settles O36, by the bits of each operation on words. -/
theorem andOrXorNor : Obligations.AndOrXorNor := by
  intro s rs rt rd sh
  refine ⟨⟨_, _, rfl, s.writesReg_setReg rd _ none, fun k _ => BitVec.getLsbD_and⟩,
    ⟨_, _, rfl, s.writesReg_setReg rd _ none, fun k _ => BitVec.getLsbD_or⟩,
    ⟨_, _, rfl, s.writesReg_setReg rd _ none, fun k _ => BitVec.getLsbD_xor⟩,
    ⟨_, _, rfl, s.writesReg_setReg rd _ none, fun k hk => ?_⟩⟩
  rw [BitVec.getLsbD_not, BitVec.getLsbD_or, decide_eq_true hk, Bool.true_and]

/-- The zero-extended immediate has the immediate's bits, and zeros above them. -/
theorem getLsbD_logicalImm (imm : Imm16) (k : Nat) : (logicalImm imm).getLsbD k = imm.getLsbD k :=
  congrArg (Nat.testBit · k) (logicalImm_toNat imm)

theorem logicalImm_div_two_pow (imm : Imm16) : (logicalImm imm).toNat / 2 ^ 16 = 0 := by
  rw [logicalImm_toNat, Nat.div_eq_of_lt imm.isLt]

/-- Settles O37: the upper half of the zero-extended immediate is zero, and each operation acts on the halves apart. -/
theorem andiOriXori : Obligations.AndiOriXori := by
  intro s rs rt imm
  refine ⟨⟨_, _, rfl, s.writesReg_setReg rt _ none, fun k _ => ?_, ?_⟩,
    ⟨_, _, rfl, s.writesReg_setReg rt _ none, fun k _ => ?_, ?_⟩,
    ⟨_, _, rfl, s.writesReg_setReg rt _ none, fun k _ => ?_, ?_⟩⟩
  · rw [BitVec.getLsbD_and, getLsbD_logicalImm]
  · rw [BitVec.toNat_and, logicalImm_toNat]
    exact Nat.and_lt_two_pow _ imm.isLt
  · rw [BitVec.getLsbD_or, getLsbD_logicalImm]
  · rw [BitVec.toNat_or, Nat.or_div_two_pow, logicalImm_div_two_pow, Nat.or_zero]
  · rw [BitVec.getLsbD_xor, getLsbD_logicalImm]
  · rw [BitVec.toNat_xor, Nat.xor_div_two_pow, logicalImm_div_two_pow, Nat.xor_zero]

/-- A signed comparison as a register value (41_alu.md rule R99). -/
theorem boolWord_signedLess (a b : Word) : boolWord (signedLess a b) = if a.toInt < b.toInt then 1#32 else 0#32 := by
  simp only [boolWord, signedLess, decide_eq_true_eq]

/-- Settles O38: the comparison of the operands, the immediate as its sign extension. -/
theorem sltAndSlti : Obligations.SltAndSlti := by
  intro s rs rt rd sh imm
  rw [← boolWord_signedLess, ← signedImm_toInt, ← boolWord_signedLess]
  exact ⟨s.result_writesReg rd _, s.result_writesReg rt _⟩

/-- Settles O39, by the number each shift of a word is. -/
theorem shiftsByShamt : Obligations.ShiftsByShamt := by
  intro s rs rt rd sh
  refine ⟨⟨_, _, rfl, s.writesReg_setReg rd _ none, ?_⟩, ⟨_, _, rfl, s.writesReg_setReg rd _ none, ?_⟩,
    ⟨_, _, rfl, s.writesReg_setReg rd _ none, ?_⟩⟩
  · rw [BitVec.toNat_shiftLeft, Nat.shiftLeft_eq]
  · rw [BitVec.toNat_ushiftRight, Nat.shiftRight_eq_div_pow]
  · rw [BitVec.toInt_sshiftRight, Int.shiftRight_eq_div_pow, Nat.cast_pow, Nat.cast_ofNat]

end Sys2Proof.Machine
end

section
/-! PROOFS. Multiply, divide and the moves of HI and LO: the two halves of a product, and quotient and remainder as the
library's division of words, signed and unsigned (42_muldiv.md). -/

namespace Sys2Proof.Machine

/-! ## Moves (42_muldiv.md rules R125 to R128) -/

/-- Settles O44: a move into a register ends as any result does, and a move into HI or LO writes the pair with the other
of the two as it was. -/
theorem hiLoMoves : Obligations.HiLoMoves :=
  fun s rs _ rd _ =>
    ⟨s.result_writesReg rd s.hi, s.result_writesReg rd s.lo,
      ⟨_, rfl, s.writesHiLo_quotient s.lo (s.reg rs)⟩, ⟨_, rfl, s.writesHiLo_quotient (s.reg rs) s.hi⟩⟩

/-! ## Multiply (42_muldiv.md rules R121 and R122) -/

/-- HI and LO together are the product. -/
theorem toNat_halves_eq (p : BitVec 64) :
    (p.extractLsb' 32 32).toNat * 2 ^ 32 + (p.extractLsb' 0 32).toNat = p.toNat := by
  rw [← toNat_append_eq_add, BitVec.extractLsb'_append_extractLsb'_eq_extractLsb' (by rfl), BitVec.extractLsb'_eq_self]

/-- The 64 bits of an integer are its value modulo 2^64. -/
theorem toNat_ofInt_64 (n : Int) : ((BitVec.ofInt 64 n).toNat : Int) = n % 2 ^ 64 := by
  rw [BitVec.toNat_ofInt]
  omega

/-- A product of two words fits in 64 bits. -/
theorem toNat_mul_toNat_lt (a b : Word) : a.toNat * b.toNat < 2 ^ 64 :=
  Nat.mul_lt_mul'' (c := 2 ^ 32) (d := 2 ^ 32) a.isLt b.isLt

/-- Settles O41: the halves are the 64-bit product, which an unsigned product fits. -/
theorem multAndMultuProducts : Obligations.MultAndMultuProducts := by
  intro s rs rt rd sh
  refine ⟨⟨_, _, _, rfl, s.writesHiLo_product _, ?_⟩, ⟨_, _, _, rfl, s.writesHiLo_product _, ?_⟩⟩
  · rw [← toNat_ofInt_64]
    exact_mod_cast toNat_halves_eq _
  · rw [toNat_halves_eq, BitVec.toNat_ofNat, Nat.mod_eq_of_lt (toNat_mul_toNat_lt _ _)]

/-! ## Division by zero (42_muldiv.md rule R129) -/

theorem exec_div_of_divisor_eq_zero {s : State} {rt : Reg} (h : s.reg rt = 0#32) (rs rd : Reg) (sh : Shamt) :
    exec (.div rs rt rd sh) s = .next (s.commit none) :=
  if_pos (congrArg BitVec.toInt h)

theorem exec_divu_of_divisor_eq_zero {s : State} {rt : Reg} (h : s.reg rt = 0#32) (rs rd : Reg) (sh : Shamt) :
    exec (.divu rs rt rd sh) s = .next (s.commit none) :=
  if_pos (congrArg BitVec.toNat h)

/-- Settles O43: either division ends in the bare commit, which leaves HI and LO for the move that follows. -/
theorem divisionByZero : Obligations.DivisionByZero := by
  refine ⟨⟨rfl, rfl⟩, fun s rs rt rd sh i hi hzero => ⟨s.commit none, ?_, s.writesNothing_commit none, ?_⟩⟩
  · rcases hi with rfl | rfl
    · exact exec_div_of_divisor_eq_zero hzero rs rd sh
    · exact exec_divu_of_divisor_eq_zero hzero rs rd sh
  · exact fun _ _ rd' _ => ⟨(s.commit none).result_writesReg rd' s.hi, (s.commit none).result_writesReg rd' s.lo⟩

/-! ## Division by another divisor (42_muldiv.md rules R123 and R124; decision D14, log 18) -/

theorem signedRemainder_eq_tmod (n d : Int) : signedRemainder n d = n.tmod d := by
  rw [signedRemainder, signedQuotient, Int.mul_comm, Int.tmod_def]

/-- DIV's quotient is the library's signed division of words, also where it does not fit. -/
theorem ofInt_signedQuotient (a b : Word) : BitVec.ofInt 32 (signedQuotient a.toInt b.toInt) = a.sdiv b :=
  BitVec.eq_of_toInt_eq (by rw [BitVec.toInt_ofInt, BitVec.toInt_sdiv, signedQuotient])

theorem ofInt_signedRemainder (a b : Word) : BitVec.ofInt 32 (signedRemainder a.toInt b.toInt) = a.srem b := by
  rw [signedRemainder_eq_tmod, ← BitVec.toInt_srem, BitVec.ofInt_toInt]

theorem ofNat_unsignedRemainder (a b : Word) :
    BitVec.ofNat 32 (a.toNat - a.toNat / b.toNat * b.toNat) = a % b := by
  rw [← Nat.mod_eq_sub_div_mul, ← BitVec.toNat_umod, BitVec.ofNat_toNat, BitVec.setWidth_eq]

theorem exec_div_of_divisor_ne_zero {s : State} {rt : Reg} (h : s.reg rt ≠ 0#32) (rs rd : Reg) (sh : Shamt) :
    exec (.div rs rt rd sh) s =
      .next ((s.writeQuotient ((s.reg rs).sdiv (s.reg rt)) ((s.reg rs).srem (s.reg rt))).commit none) := by
  have hd : (s.reg rt).toInt ≠ 0 := BitVec.toInt_ne.2 h
  rw [← ofInt_signedQuotient, ← ofInt_signedRemainder]
  exact if_neg hd

theorem exec_divu_of_divisor_ne_zero {s : State} {rt : Reg} (h : s.reg rt ≠ 0#32) (rs rd : Reg) (sh : Shamt) :
    exec (.divu rs rt rd sh) s = .next ((s.writeQuotient (s.reg rs / s.reg rt) (s.reg rs % s.reg rt)).commit none) := by
  have hd : (s.reg rt).toNat ≠ 0 := BitVec.toNat_ne.1 h
  rw [BitVec.udiv_def, ← ofNat_unsignedRemainder]
  exact if_neg hd

/-- The one signed quotient that does not fit in a word. -/
theorem sdiv_srem_of_overflow {a b : Word} (ha : a.toInt = -2 ^ 31) (hb : b.toInt = -1) :
    a.sdiv b = 0x80000000#32 ∧ a.srem b = 0#32 := by
  have ha' : a = 0x80000000#32 := BitVec.eq_of_toInt_eq ha
  have hb' : b = 0xFFFFFFFF#32 := BitVec.eq_of_toInt_eq hb
  subst ha' hb'
  decide

/-- Every other signed quotient fits in a word. -/
theorem toInt_sdiv_of_not_overflow {a b : Word} (h : ¬ (a.toInt = -2 ^ 31 ∧ b.toInt = -1)) :
    (a.sdiv b).toInt = a.toInt.tdiv b.toInt := by
  refine BitVec.toInt_sdiv_of_ne_or_ne a b (not_and_or.1 fun ⟨ha, hb⟩ => h ⟨?_, ?_⟩)
  · rw [ha]; rfl
  · rw [hb]; rfl

theorem abs_tmod_lt {d : Int} (hd : d ≠ 0) (n : Int) : |n.tmod d| < |d| := by
  rw [Int.abs_eq_natAbs, Int.abs_eq_natAbs, Int.natAbs_tmod]
  exact_mod_cast Nat.mod_lt _ (Int.natAbs_pos.2 hd)

/-- The remainder of a rounding toward zero has the dividend's sign. -/
theorem neg_of_tmod_neg {n d : Int} (h : n.tmod d < 0) : n < 0 :=
  lt_of_not_ge fun hn => h.not_ge (Int.tmod_nonneg d hn)

theorem pos_of_tmod_pos {n d : Int} (h : 0 < n.tmod d) : 0 < n := by
  have hneg : (-n).tmod d < 0 := by rw [Int.neg_tmod]; exact neg_neg_of_pos h
  exact Int.neg_neg_iff_pos.1 (neg_of_tmod_neg hneg)

/-- Settles O42: the quotient and remainder are the library's on words; the signed overflow is evaluated apart. -/
theorem divisionByANonZeroDivisor : Obligations.DivisionByANonZeroDivisor := by
  intro s rs rt rd sh hne
  refine ⟨⟨_, _, _, exec_div_of_divisor_ne_zero hne rs rd sh, s.writesHiLo_quotient _ _, ?_⟩,
    ⟨_, _, _, exec_divu_of_divisor_ne_zero hne rs rd sh, s.writesHiLo_quotient _ _, ?_, ?_⟩⟩
  · intro n d
    have hd : d ≠ 0 := BitVec.toInt_ne.2 hne
    split
    case isTrue hover =>
      obtain ⟨hn, hm⟩ := hover
      exact sdiv_srem_of_overflow hn hm
    case isFalse hfit =>
      rw [toInt_sdiv_of_not_overflow hfit, BitVec.toInt_srem]
      exact ⟨(Int.tdiv_mul_add_tmod n d).symm, abs_tmod_lt hd n, neg_of_tmod_neg, pos_of_tmod_pos⟩
  · rw [BitVec.toNat_udiv, BitVec.toNat_umod, Nat.div_add_mod']
  · exact BitVec.umod_lt _ ((BitVec.pos_iff_ne_zero _).2 hne)

end Sys2Proof.Machine
end

section
/-! PROOFS. Loads, stores and LUI: the two ends of an access, and the extended values as numbers (43_loadstore.md). -/

namespace Sys2Proof.Machine

/-! ## The two ends of an access (43_loadstore.md rule R130) -/

section
variable {s : State} {ea : Word} {width : Width} {c : MemCause}

theorem State.load_writesReg (h : accessFault s.cfg ea width = none) (w : Word) (ext : Word → Word) (rt : Reg) :
    ∃ t, s.load w ea width ext rt = .next t ∧
      WritesReg s t rt (ext (Memory.load s.mem ea.toNat (widthBytes width))) none := by
  rcases s.load_cases w ea width ext rt with ⟨c, hbad, -⟩ | ⟨-, hnext⟩
  · cases h.symm.trans hbad
  · exact ⟨_, hnext, s.writesReg_setReg rt _ none⟩

theorem State.load_takesFault (h : accessFault s.cfg ea width = some c) (w : Word) (ext : Word → Word) (rt : Reg) :
    ∃ t, s.load w ea width ext rt = .next t ∧ TakesFault s t .memoryFault (some c) (some w) (some ea) none := by
  rcases s.load_cases w ea width ext rt with ⟨c', hbad, hnext⟩ | ⟨hgood, -⟩
  · obtain rfl : c = c' := Option.some.inj (h.symm.trans hbad)
    exact ⟨_, hnext, s.takesFault _ _ _ _ _⟩
  · cases hgood.symm.trans h

theorem State.store_writesMemory (h : accessFault s.cfg ea width = none) (w v : Word) :
    ∃ t, s.store w ea width v = .next t ∧ WritesMemory s t ea.toNat (widthBytes width) v := by
  rcases s.store_cases w ea width v with ⟨c, hbad, -⟩ | ⟨-, hnext⟩
  · cases h.symm.trans hbad
  · exact ⟨_, hnext, s.writesMemory_store _ _ v⟩

theorem State.store_takesFault (h : accessFault s.cfg ea width = some c) (w v : Word) :
    ∃ t, s.store w ea width v = .next t ∧
      TakesFault s t .memoryFault (some c) (some w) (some ea) (some v) := by
  rcases s.store_cases w ea width v with ⟨c', hbad, hnext⟩ | ⟨hgood, -⟩
  · obtain rfl : c = c' := Option.some.inj (h.symm.trans hbad)
    exact ⟨_, hnext, s.takesFault _ _ _ _ _⟩
  · cases hgood.symm.trans h

end

/-! ## The extended values (43_loadstore.md rules R132, R133, R138 and R139) -/

section
variable (m : Memory) (a : Nat)

/-- The low byte of a loaded byte is the byte. -/
theorem Memory.setWidth_load_one : (Memory.load m a 1).setWidth 8 = Memory.read m a := by
  rw [Memory.load_one, BitVec.setWidth_setWidth_of_le _ (by decide), BitVec.setWidth_eq]

/-- The low half-word of a loaded half-word is its two bytes, lowest first (20_memory.md rule R34). -/
theorem Memory.setWidth_load_two : (Memory.load m a 2).setWidth 16 = Memory.read m (a + 1) ++ Memory.read m a := by
  rw [Memory.load_two, BitVec.setWidth_setWidth_of_le _ (by decide), BitVec.setWidth_eq]

theorem signedByte_load_toInt : (signedByte (Memory.load m a 1)).toInt = (Memory.read m a).toInt := by
  rw [signedByte, Memory.setWidth_load_one, BitVec.toInt_signExtend_of_le (by decide)]

theorem signedHalf_load_toInt :
    (signedHalf (Memory.load m a 2)).toInt = (Memory.read m (a + 1) ++ Memory.read m a).toInt := by
  rw [signedHalf, Memory.setWidth_load_two, BitVec.toInt_signExtend_of_le (by decide)]

theorem unsignedByte_load_toNat : (unsignedByte (Memory.load m a 1)).toNat = (Memory.read m a).toNat := by
  rw [unsignedByte, Memory.setWidth_load_one, BitVec.toNat_setWidth_of_le (by decide)]

theorem unsignedHalf_load_toNat :
    (unsignedHalf (Memory.load m a 2)).toNat = (Memory.read m a).toNat + 256 * (Memory.read m (a + 1)).toNat := by
  rw [unsignedHalf, Memory.setWidth_load_two, BitVec.toNat_setWidth_of_le (by decide), toNat_append_eq_add]
  omega

end

/-! ## The optional loads (decision D3) -/

section
variable {s : State} (h : s.cfg.hasUnsignedLoads = true) (rs rt : Reg) (imm : Imm16)
include h

theorem exec_lbu_of_hasUnsignedLoads : exec (.lbu rs rt imm) s =
    s.load (encode (.lbu rs rt imm)) (s.effectiveAddress rs imm) .byte unsignedByte rt := if_pos h

theorem exec_lhu_of_hasUnsignedLoads : exec (.lhu rs rt imm) s =
    s.load (encode (.lhu rs rt imm)) (s.effectiveAddress rs imm) .half unsignedHalf rt := if_pos h

end

/-- An instruction that the configuration has not takes the DecodeFault (30_encoding.md rule R60). -/
theorem exec_takesFault_of_not_wf {s : State} {i : Instr} (h : i.wf s.cfg = false) :
    ∃ t, exec i s = .next t ∧ TakesFault s t .decodeFault none (some (encode i)) none none :=
  ⟨_, exec_eq_decodeFault_of_not_wf h, s.takesFault _ _ _ _ _⟩

/-! ## The obligations -/

/-- Settles O40: LUI ends as any result does, with the immediate in the upper half. -/
theorem luiLoadsTheUpperHalf : Obligations.LuiLoadsTheUpperHalf :=
  fun s _ rt imm => ⟨_, _, rfl, upperImm_toNat imm, s.writesReg_setReg rt _ none⟩

/-- Settles O45: a good load writes the extended bytes, and the sign extension keeps their signed value. -/
theorem signedLoads : Obligations.SignedLoads := by
  intro s rs rt imm ea byte
  refine ⟨fun hok => ?_, fun hok => ?_, fun hok => ?_⟩
  · have hload := exec_lw_writesReg hok rt
    rwa [Memory.load_four] at hload
  · obtain ⟨t, hnext, hwrites⟩ := State.load_writesReg hok (encode (.lh rs rt imm)) signedHalf rt
    exact ⟨t, _, hnext, signedHalf_load_toInt s.mem ea.toNat, hwrites⟩
  · obtain ⟨t, hnext, hwrites⟩ := State.load_writesReg hok (encode (.lb rs rt imm)) signedByte rt
    exact ⟨t, _, hnext, signedByte_load_toInt s.mem ea.toNat, hwrites⟩

/-- Settles O46: with the parameter set these are loads like the others, and the zero extension keeps the value. -/
theorem unsignedLoads : Obligations.UnsignedLoads := by
  intro s rs rt imm hhas ea byte
  rw [exec_lbu_of_hasUnsignedLoads hhas, exec_lhu_of_hasUnsignedLoads hhas]
  refine ⟨fun hok => ?_, fun hok => ?_⟩
  · obtain ⟨t, hnext, hwrites⟩ := State.load_writesReg hok (encode (.lbu rs rt imm)) unsignedByte rt
    exact ⟨t, _, hnext, unsignedByte_load_toNat s.mem ea.toNat, hwrites⟩
  · obtain ⟨t, hnext, hwrites⟩ := State.load_writesReg hok (encode (.lhu rs rt imm)) unsignedHalf rt
    exact ⟨t, _, hnext, unsignedHalf_load_toNat s.mem ea.toNat, hwrites⟩

/-- Settles O47: without the parameter neither is an instruction of the configuration. -/
theorem unsignedLoadsAbsent : Obligations.UnsignedLoadsAbsent :=
  fun _ rs rt imm hnot =>
    ⟨exec_takesFault_of_not_wf (i := .lbu rs rt imm) hnot, exec_takesFault_of_not_wf (i := .lhu rs rt imm) hnot⟩

/-- Settles O48: every load is the shared one, which faults before it writes; LHU and LBU are where they exist. -/
theorem loadsFaultOnBadAccess : Obligations.LoadsFaultOnBadAccess := by
  intro s rs rt imm c ea faults
  refine ⟨fun hbad => State.load_takesFault hbad _ id rt, fun hbad => State.load_takesFault hbad _ signedHalf rt,
    fun hbad => State.load_takesFault hbad _ signedByte rt, fun hhas => ?_⟩
  unfold faults
  rw [exec_lhu_of_hasUnsignedLoads hhas, exec_lbu_of_hasUnsignedLoads hhas]
  exact ⟨fun hbad => State.load_takesFault hbad _ unsignedHalf rt,
    fun hbad => State.load_takesFault hbad _ unsignedByte rt⟩

/-- Settles O49: every store is the shared one, at its width. -/
theorem storesWriteTheirBytes : Obligations.StoresWriteTheirBytes :=
  fun s _ rt _ =>
    ⟨fun hok => State.store_writesMemory hok _ (s.reg rt), fun hok => State.store_writesMemory hok _ (s.reg rt),
      fun hok => State.store_writesMemory hok _ (s.reg rt)⟩

/-- Settles O50: every store is the shared one, which faults before it writes. -/
theorem storesFaultOnBadAccess : Obligations.StoresFaultOnBadAccess :=
  fun s _ rt _ _ =>
    ⟨fun hbad => State.store_takesFault hbad _ (s.reg rt), fun hbad => State.store_takesFault hbad _ (s.reg rt),
      fun hbad => State.store_takesFault hbad _ (s.reg rt)⟩

end Sys2Proof.Machine
end

section
/-! PROOFS. Branches and jumps: the redirect each records, and the link (44_control.md). -/

namespace Sys2Proof.Machine

/-! ## Conditional branches (44_control.md rules R151 to R154) -/

/-- A branch under the condition `p` redirects to its target where `p` holds, and writes nothing else. -/
theorem State.branch_writesNothing (s : State) (p : Prop) [Decidable p] (imm : Imm16) :
    ∃ t, s.branch (decide p) imm = .next t ∧
      WritesNothing s t (if p then some (branchTarget s.pc imm) else none) := by
  simp only [State.branch, State.transfer, decide_eq_true_eq]
  exact ⟨_, rfl, s.writesNothing_commit _⟩

/-- A branch under the complement of `p` redirects to its target where `p` fails. -/
theorem State.branch_not_writesNothing (s : State) (p : Prop) [Decidable p] (imm : Imm16) :
    ∃ t, s.branch (decide ¬p) imm = .next t ∧
      WritesNothing s t (if p then none else some (branchTarget s.pc imm)) := by
  rw [← ite_not]
  exact s.branch_writesNothing (¬p) imm

/-- A word is at most zero, as signed, where its sign bit is set or it is zero (decision D13, log 17). -/
theorem toInt_nonpos_iff (a : Word) : a.toInt ≤ 0 ↔ a.msb = true ∨ a = 0#32 := by
  rw [le_iff_lt_or_eq, BitVec.msb_eq_toInt, decide_eq_true_eq, ← BitVec.toInt_inj, BitVec.toInt_zero]

theorem atMostZero_eq_decide (a : Word) : atMostZero a = decide (a.msb = true ∨ a = 0#32) :=
  decide_eq_decide.2 (toInt_nonpos_iff a)

theorem aboveZero_eq_decide_not (a : Word) : aboveZero a = decide ¬(a.msb = true ∨ a = 0#32) :=
  decide_eq_decide.2 (not_le.symm.trans (toInt_nonpos_iff a).not)

/-- Settles O51: BEQ branches where the registers are equal, BNE under the complement. -/
theorem beqAndBne : Obligations.BeqAndBne :=
  fun s rs rt imm =>
    ⟨branchTarget s.pc imm, branchTarget_toNat s.pc imm, s.branch_writesNothing (s.reg rs = s.reg rt) imm,
      s.branch_not_writesNothing (s.reg rs = s.reg rt) imm⟩

/-- Settles O52: BLEZ branches where the sign bit is set or the register is zero, BGTZ under the complement. -/
theorem blezAndBgtz : Obligations.BlezAndBgtz := by
  intro s rs rt imm
  refine ⟨branchTarget s.pc imm, branchTarget_toNat s.pc imm, ?_, ?_⟩
  · have hblez : exec (.blez rs rt imm) s = s.branch (atMostZero (s.reg rs)) imm := rfl
    rw [hblez, atMostZero_eq_decide]
    exact s.branch_writesNothing _ imm
  · have hbgtz : exec (.bgtz rs rt imm) s = s.branch (aboveZero (s.reg rs)) imm := rfl
    rw [hbgtz, aboveZero_eq_decide_not]
    exact s.branch_not_writesNothing _ imm

/-! ## Jumps (44_control.md rules R155 to R158) -/

/-- A jump with a link writes register 31 besides its redirect (rule R161; decision D11, log 15). -/
theorem State.writesReg_link (s : State) (out : Option Word) :
    WritesReg s (s.link.commit out) 31#5 (linkAddress s.pc) out :=
  s.writesReg_setReg 31#5 (linkAddress s.pc) out

/-- The word of JAL has opcode 3 (30_encoding.md rule R57). -/
theorem encode_jal_toNat (target : Target26) : (encode (.jal target)).toNat = 3 * 2 ^ 26 + target.toNat :=
  encodeJ_toNat 3#6 target

/-- Settles O53: the word is the one JAL is encoded as, and the link is the write of register 31. -/
theorem jumpAndLink : Obligations.JumpAndLink := by
  intro s target
  refine ⟨fun w hw => ?_, _, _, _, rfl, jumpTarget_toNat s.pc target, linkAddress_toNat s.pc, s.writesReg_link _⟩
  obtain rfl : w = encode (.jal target) := BitVec.eq_of_toNat_eq (hw.trans (encode_jal_toNat target).symm)
  exact decode_encode (.jal target)

/-- Settles O54: each is a bare redirect, and JALR's target is the register before its link is written. -/
theorem jumpAndRegisterJumps : Obligations.JumpAndRegisterJumps :=
  fun s target rs _ _ _ =>
    ⟨⟨_, _, rfl, jumpTarget_toNat s.pc target, s.writesNothing_commit _⟩,
      ⟨_, rfl, s.writesNothing_commit (some (s.reg rs))⟩,
      ⟨_, _, rfl, linkAddress_toNat s.pc, s.writesReg_link (some (s.reg rs))⟩⟩

end Sys2Proof.Machine
end

section
/-! PROOFS. The system call: the halt, and the call of the environment (45_system.md). -/

namespace Sys2Proof.Machine

/-! ## The halt (45_system.md rule R171) -/

/-- Settles O55: the halt is a commit of the state itself, and stopping the core keeps all that this wrote and left. -/
theorem syscallHalts : Obligations.SyscallHalts := by
  intro s rs rt rd sh hsel
  obtain ⟨commits, -, regs, hilo, memory⟩ := s.writesNothing_commit none
  exact ⟨_, execSyscall_of_halt hsel, commits.stop, rfl, regs, hilo, memory, rfl, rfl, rfl⟩

/-! ## The call of the environment (45_system.md rule R172) -/

theorem execSyscall_of_not_halt {s : State} (h : s.reg 2#5 ≠ s.cfg.haltSelector) :
    execSyscall s = .next ((s.callEnv (s.reg 2#5)).commit none) := if_neg h

/-- An element of the snapshot is what its register reads as (70_reset_and_hazards.md rule R215). -/
theorem State.getElem_gprSnapshot (s : State) (r : Reg) : s.gprSnapshot[r.toNat] = s.reg r := by
  by_cases hr : r = 0#5
  · subst hr
    simp [State.gprSnapshot]
  · calc s.gprSnapshot[r.toNat]
      _ = gprRead (s.gpr.set 0 0#32) r := (gprRead_of_ne hr).symm
      _ = s.reg r := gprRead_set_zero s.gpr 0#32 r

/-- From `s` to `t` the answer to a call is written to register 2, or with no answer nothing is. -/
def AnswerWritten (s t : State) : Option Word → Prop
  | some v => OnlyReg s t 2#5 v
  | none => SameRegs s t

/-- A call of the environment that commits has written the environment's answer. -/
theorem State.callEnv_answerWritten (s : State) (sel : Word) :
    AnswerWritten s ((s.callEnv sel).commit none) (s.envAnswer sel) := by
  cases ha : s.envAnswer sel with
  | none =>
    intro r
    rw [State.reg_commit, State.reg_callEnv, ha]
    split_ifs with hr
    · rw [hr, Option.getD_none]
    · rfl
  | some v =>
    intro r
    simp [State.reg_callEnv, ha]

/-- Settles O56: the committed call has written the environment's answer; which answer that is, and how the environment
goes on, depends on whether one written out is left and, with none left, on the kind of the environment. -/
theorem syscallCallsTheEnvironment : Obligations.SyscallCallsTheEnvironment := by
  intro s rs rt rd sh hsel
  have commits : Commits s ((s.callEnv (s.reg 2#5)).commit none) none :=
    s.commits_of _ none rfl rfl rfl rfl rfl rfl
  have written := s.callEnv_answerWritten (s.reg 2#5)
  refine ⟨_, ⟨s.reg 2#5, s.gprSnapshot⟩, execSyscall_of_not_halt hsel, commits, rfl, ⟨rfl, rfl⟩, fun _ => rfl, ?_, rfl,
    ?_, rfl, rfl, s.getElem_gprSnapshot⟩
  · cases hl : s.envAnswers with
    | cons a rest =>
      rw [(State.envAnswer_cons hl _).1] at written
      exact written
    | nil =>
      rw [(State.envAnswer_nil hl _).1] at written
      cases he : s.env <;> rw [he] at written <;> exact written
  · rw [State.commit_env, State.callEnv_env]
    cases hl : s.envAnswers with
    | cons a rest => exact (State.envAnswer_cons hl (s.reg 2#5)).2
    | nil =>
      rw [(State.envAnswer_nil hl (s.reg 2#5)).2]
      cases s.env <;> rfl

end Sys2Proof.Machine
end

section
/-! PROOFS. Faults: no step or instruction stops the model, and a word that is no instruction halts the core
(60_exceptions.md rules R181 and R186). -/

namespace Sys2Proof.Machine

/-- Settles O9: every end of an instruction's cycle, a fault's included, is a next state. -/
theorem everyStepAnswersANextState : Obligations.EveryStepAnswersANextState :=
  ⟨step_exists_next, fun i s => (exec_ends i s).exists_next⟩

/-- Settles O12: the word takes the DecodeFault, which halts the core, and a halted core's step changes nothing. -/
theorem unmappedWordsHalt : Obligations.UnmappedWordsHalt := by
  intro s w hr hf hw
  obtain ⟨t, hstep, hfault⟩ := (fetchAndDecodeFaultsHalt s hr).2 w hf hw
  exact ⟨t, _, hstep, hfault.runFlag, hfault.diag, rfl, step_halted hfault.runFlag⟩

end Sys2Proof.Machine
end

section
/-! PROOFS. The host's writes, its reset with an image, and the invariant under both (70_reset_and_hazards.md rules R210,
R212 and R214). -/

namespace Sys2Proof.Machine

/-! ## The writes and the stop -/

/-- Settles O58: the register write is the shared one, and each other operation updates the one field it names. -/
theorem hostWritesTouchOnlyWhatTheyName : Obligations.HostWritesTouchOnlyWhatTheyName :=
  fun s r v => ⟨⟨s.reg_setReg r v, rfl⟩, ⟨rfl, rfl⟩, ⟨rfl, rfl⟩, ⟨rfl, rfl⟩⟩

/-- A register write leaves the element of register 0 alone (10_state.md rule R12). -/
theorem getElem_gprWrite_zero (g : Vector Word 32) (r : Reg) (v : Word) : (gprWrite g r v)[0] = g[0] := by
  unfold gprWrite
  split_ifs with hr
  · rfl
  · have hne : r.toNat ≠ 0 := fun h0 => hr (BitVec.eq_of_toNat_eq h0)
    rw [Vector.getElem_set, if_neg hne]

theorem State.Inv.hostSetGpr {s : State} (h : s.Inv) (r : Reg) (v : Word) : (s.hostSetGpr r v).Inv :=
  { h with zero := (getElem_gprWrite_zero s.gpr r v).trans h.zero }

/-! ## Reset with an image -/

theorem imageFits_iff {c : Config} {image : List Word} :
    imageFits c image = true ↔ 4 * image.length ≤ c.text.limit.toNat - c.text.base.toNat + 1 := decide_eq_true_iff

theorem State.hostReset_of_fits {s : State} {image : List Word} (h : imageFits s.cfg image = true) :
    s.hostReset image = .next (s.cleared.loadImage image) := if_pos h

theorem State.hostReset_of_not_fits {s : State} {image : List Word} (h : ¬ imageFits s.cfg image = true) :
    s.hostReset image = .refused (.imageTooLong image.length) := if_neg h

/-- An image that a reset loaded fits TEXT. -/
theorem State.imageFits_of_hostReset {s t : State} {image : List Word} (h : s.hostReset image = .next t) :
    imageFits s.cfg image = true := by
  by_contra hfit
  cases (State.hostReset_of_not_fits hfit).symm.trans h

/-- `TEXT_BASE` is a multiple of 4 (00_scope.md rule R5). -/
theorem Config.textBase_of_wf {c : Config} (h : c.wf = true) : c.text.base.toNat % 4 = 0 := by
  simp only [Config.wf, Config.textBaseAligned, Bool.and_eq_true, and_assoc, beq_iff_eq] at h
  obtain ⟨hbase, -⟩ := h
  exact hbase

/-- Words stored within TEXT list nothing outside the regions (20_memory.md rule R31). -/
theorem Memory.inside_storeWords_text {c : Config} {image : List Word} (hwf : c.wf = true)
    (hfit : imageFits c image = true) :
    (Memory.storeWords [] c.text.base.toNat image).all (fun e => mapped c e.1) = true := by
  obtain ⟨-, hword⟩ := Config.text_of_wf hwf
  have hlen := imageFits_iff.1 hfit
  rw [List.all_eq_true]
  intro e he
  rcases Memory.mem_storeWords he with ⟨hlo, hhi⟩ | hnil
  · exact mapped_iff.2 ⟨c.text, List.mem_cons_self, hlo, by omega⟩
  · cases hnil

/-- The cleared machine with an image that fits meets the invariant. -/
theorem State.inv_cleared_loadImage {s : State} {image : List Word} (hwf : s.cfg.wf = true)
    (hfit : imageFits s.cfg image = true) : (s.cleared.loadImage image).Inv where
  cfg := hwf
  memory := Memory.wf_storeWords rfl _ image
  inside := Memory.inside_storeWords_text hwf hfit
  zero := rfl
  halted := fun hd => absurd rfl hd
  record := rfl

/-- Settles O24: no write touches what the invariant speaks of, the element of register 0 included, and a reset that
answers loaded an image that fits. -/
theorem hostOperationsKeepTheInvariant : Obligations.HostOperationsKeepTheInvariant := by
  intro s h
  refine ⟨h.hostSetGpr, fun v => { h with }, fun v => { h with }, h.stop, fun image t hreset => ?_⟩
  rw [State.eq_of_hostReset hreset]
  exact State.inv_cleared_loadImage h.cfg (State.imageFits_of_hostReset hreset)

/-- Word `k` of the words stored from an address on is read `4 * k` bytes after it (70_reset_and_hazards.md rule R212). -/
theorem Memory.load_storeWords (m : Memory) (a : Nat) {ws : List Word} {k : Nat} {w : Word} (h : ws[k]? = some w) :
    Memory.load (Memory.storeWords m a ws) (a + 4 * k) 4 = w := by
  induction ws generalizing m a k with
  | nil => cases h
  | cons v ws ih =>
    cases k with
    | zero =>
      obtain rfl : v = w := Option.some.inj h
      calc Memory.load (Memory.storeWords (Memory.store m a v 4) (a + 4) ws) a 4
        _ = Memory.load (Memory.store m a v 4) a 4 :=
          Memory.load_congr fun c _ hc => Memory.read_storeWords_outside _ _ _ c (.inl hc)
        _ = v := Memory.load_store_word m a v
    | succ k =>
      rw [show a + 4 * (k + 1) = a + 4 + 4 * k by omega]
      exact ih _ _ h

/-- A word address that does not pass 2^32. -/
theorem toNat_add_ofNat_four_mul {a : Word} {n : Nat} (h : a.toNat + 4 * n < 2 ^ 32) :
    (a + BitVec.ofNat 32 (4 * n)).toNat = a.toNat + 4 * n := by
  simp only [BitVec.toNat_add, BitVec.toNat_ofNat]
  omega

/-- An aligned word within TEXT is a good access (20_memory.md rule R33). -/
theorem accessFault_text_word {c : Config} {k : Nat} (hwf : c.wf = true)
    (h : c.text.base.toNat + 4 * k + 3 ≤ c.text.limit.toNat) :
    accessFault c (c.text.base + BitVec.ofNat 32 (4 * k)) .word = none := by
  have hbase := Config.textBase_of_wf hwf
  have haddr : (c.text.base + BitVec.ofNat 32 (4 * k)).toNat = c.text.base.toNat + 4 * k :=
    toNat_add_ofNat_four_mul (by omega)
  exact accessFault_eq_none_of_region (r := c.text) List.mem_cons_self (by simp only [haddr, widthBytes]; omega)
    (by omega) (by simp only [haddr, widthBytes]; omega)

/-- After a load that fits, word `k` of the image reads at `TEXT_BASE + 4 * k` (70_reset_and_hazards.md rule R212). -/
theorem State.memRead_loadImage {s : State} {image : List Word} {k : Nat} {w : Word} (hwf : s.cfg.wf = true)
    (hfit : imageFits s.cfg image = true) (hk : image[k]? = some w) :
    (s.loadImage image).memRead (s.cfg.text.base + BitVec.ofNat 32 (4 * k)) .word = .ok w := by
  obtain ⟨-, hword⟩ := Config.text_of_wf hwf
  have hlen := imageFits_iff.1 hfit
  obtain ⟨hlt, -⟩ := List.getElem?_eq_some_iff.1 hk
  have hok : accessFault s.cfg (s.cfg.text.base + BitVec.ofNat 32 (4 * k)) .word = none :=
    accessFault_text_word hwf (by omega)
  rw [State.memRead_ok (s := s.loadImage image) hok, toNat_add_ofNat_four_mul (by omega), State.loadImage_mem]
  exact congrArg Except.ok (Memory.load_storeWords s.mem _ hk)

/-- The number of words of an image that fits is a word. -/
theorem toNat_ofNat_length_of_fits {c : Config} {image : List Word} (h : imageFits c image = true) :
    (BitVec.ofNat 32 image.length).toNat = image.length := by
  have hlen := imageFits_iff.1 h
  rw [BitVec.toNat_ofNat]
  omega

/-- Settles O57: the load writes the image's words over a cleared memory, and changes no other field but their number. -/
theorem resetLoadsTheImage : Obligations.ResetLoadsTheImage := by
  intro s image hwf
  refine ⟨fun hlen => ?_, fun hlong => State.hostReset_of_not_fits (mt imageFits_iff.1 hlong)⟩
  have hfit := imageFits_iff.2 hlen
  exact ⟨_, State.hostReset_of_fits hfit, rfl, gprRead_replicate_zero, rfl, rfl, rfl, rfl, rfl, rfl,
    toNat_ofNat_length_of_fits hfit, rfl, rfl, rfl, rfl,
    fun k w hk => State.memRead_loadImage (s := s.cleared) hwf hfit hk,
    fun b hb => Memory.read_storeWords_outside [] _ image b hb⟩

end Sys2Proof.Machine
end

section
/-! PROOFS. The memory dump: the words of a range in order, or its first fault (70_reset_and_hazards.md rule R216). -/

namespace Sys2Proof.Machine

/-- Word `k + 1` of a range is word `k` of the range that begins one word later. -/
theorem add_four_add_ofNat (a : Word) (k : Nat) :
    a + 4#32 + BitVec.ofNat 32 (4 * k) = a + BitVec.ofNat 32 (4 * (k + 1)) := by
  rw [BitVec.add_assoc, ← BitVec.ofNat_add, Nat.mul_succ, Nat.add_comm]

/-- The words from the start of a range on are good accesses when the range one word longer is. -/
theorem accessFault_tail {c : Config} {a : Word} {n : Nat}
    (h : ∀ k < n + 1, accessFault c (a + BitVec.ofNat 32 (4 * k)) .word = none) :
    accessFault c a .word = none ∧ ∀ k < n, accessFault c (a + 4#32 + BitVec.ofNat 32 (4 * k)) .word = none := by
  refine ⟨by simpa using h 0 n.succ_pos, fun k hk => ?_⟩
  rw [add_four_add_ofNat]
  exact h (k + 1) (Nat.succ_lt_succ hk)

/-- A good first access puts its word before the rest of the dump, which may still fault. -/
theorem State.dumpFrom_succ {s : State} {a : Word} (h : accessFault s.cfg a .word = none) (n : Nat) :
    s.dumpFrom a (n + 1) = (s.dumpFrom (a + 4#32) n).map (Memory.load s.mem a.toNat 4 :: ·) := by
  simp only [State.dumpFrom, State.readWordHost_ok h]
  cases s.dumpFrom (a + 4#32) n <;> rfl

/-- Where every access is good the dump reads its words in order. -/
theorem State.dumpFrom_of_good {s : State} {a : Word} {n : Nat}
    (h : ∀ k < n, accessFault s.cfg (a + BitVec.ofNat 32 (4 * k)) .word = none) :
    s.dumpFrom a n = .ok ((List.range n).map fun k => Memory.load s.mem (a + BitVec.ofNat 32 (4 * k)).toNat 4) := by
  induction n generalizing a with
  | zero => rfl
  | succ n ih =>
    obtain ⟨hfirst, hrest⟩ := accessFault_tail h
    rw [State.dumpFrom_succ hfirst, ih hrest]
    simp [Except.map, List.range_succ_eq_map, add_four_add_ofNat, -BitVec.toNat_add]

/-- The first bad access ends the dump with its fault. -/
theorem State.dumpFrom_of_bad {s : State} {a : Word} {m n : Nat} {c : MemCause} (hm : m ≤ n)
    (hgood : ∀ k < m, accessFault s.cfg (a + BitVec.ofNat 32 (4 * k)) .word = none)
    (hbad : accessFault s.cfg (a + BitVec.ofNat 32 (4 * m)) .word = some c) :
    s.dumpFrom a (n + 1) = .error (.hostRead c (a + BitVec.ofNat 32 (4 * m))) := by
  induction m generalizing a n with
  | zero =>
    rw [show a + BitVec.ofNat 32 (4 * 0) = a from BitVec.add_zero a] at hbad ⊢
    simp only [State.dumpFrom, State.readWordHost_error hbad]
  | succ m ih =>
    obtain ⟨hfirst, hrest⟩ := accessFault_tail hgood
    obtain ⟨n, rfl⟩ := Nat.exists_eq_add_of_le' hm
    rw [← add_four_add_ofNat] at hbad ⊢
    rw [State.dumpFrom_succ hfirst, ← Nat.add_assoc, ih (Nat.le_add_left m n) hrest hbad]
    rfl

section
variable {s : State} {start : Word} {n : Nat}

/-- The bounds of a range of `n + 1` words are those a dump accepts, and it counts the words. -/
theorem dumpBounds_of_range (hbound : start.toNat + 4 * n < 2 ^ 32) (haligned : start.toNat % 4 = 0) :
    let stop := start + BitVec.ofNat 32 (4 * n)
    (start.toNat % 4 = 0 ∧ stop.toNat % 4 = 0 ∧ start.toNat ≤ stop.toNat) ∧
      (stop.toNat - start.toNat) / 4 + 1 = n + 1 := by
  intro stop
  have hstop : stop.toNat = start.toNat + 4 * n := toNat_add_ofNat_four_mul hbound
  omega

theorem State.dump_of_dumpFrom_ok {vs : List Word} (hbound : start.toNat + 4 * n < 2 ^ 32)
    (haligned : start.toNat % 4 = 0) (h : s.dumpFrom start (n + 1) = .ok vs) :
    s.dump start (start + BitVec.ofNat 32 (4 * n)) = .next vs := by
  obtain ⟨haccepted, hcount⟩ := dumpBounds_of_range hbound haligned
  rw [State.dump, if_pos haccepted, hcount, h]

theorem State.dump_of_dumpFrom_error {f : Fault} (hbound : start.toNat + 4 * n < 2 ^ 32)
    (haligned : start.toNat % 4 = 0) (h : s.dumpFrom start (n + 1) = .error f) :
    s.dump start (start + BitVec.ofNat 32 (4 * n)) = .fault f := by
  obtain ⟨haccepted, hcount⟩ := dumpBounds_of_range hbound haligned
  rw [State.dump, if_pos haccepted, hcount, h]

end

/-- Settles O59: the words of the range are read one after the other, until the first bad one. -/
theorem dumpReadsTheRange : Obligations.DumpReadsTheRange := by
  refine ⟨fun s start n hbound haligned hgood => ?_, fun s start m n c hbound haligned hm hgood hbad =>
    State.dump_of_dumpFrom_error hbound haligned (State.dumpFrom_of_bad hm hgood hbad),
    fun s start stop hbad => if_neg hbad⟩
  have hread := s.dumpFrom_of_good (n := n + 1) fun k hk => hgood k (Nat.le_of_lt_succ hk)
  refine ⟨_, State.dump_of_dumpFrom_ok hbound haligned hread, by simp, fun k hk => ?_⟩
  have haddr : (start + BitVec.ofNat 32 (4 * k)).toNat = start.toNat + 4 * k := toNat_add_ofNat_four_mul (by omega)
  rw [List.getElem?_map, List.getElem?_range (Nat.lt_succ_of_le hk), Option.map_some, haddr]

end Sys2Proof.Machine
end
